-- ==== Sys2Proof/Word.lean ====
section
/-! DEFINITION. The values that stand on the wires of the codec: Bits, sequences of Bits, port names, simulator levels. -/

namespace Sys2Proof

/-- A Bit, "a single binary digit, represented as 0 or 1" (R16); `false` is 0 and `true` is 1. -/
abbrev Bit := Bool

/-- An ordered sequence of Bits (R16, R17): a Bitstream, a data group or a block. The head is position 1. -/
abbrev Bits := List Bit

/-- The eight ports of the block (R54). -/
inductive Port where
  /-- `enc_d_i`, the operand of ENC -/
  | encDI
  /-- `enc_c_o`, the result of ENC -/
  | encCO
  /-- `dec_c_i`, the operand of DEC -/
  | decCI
  /-- `dec_d_o`, the decoded data group -/
  | decDO
  /-- `dec_syn_o`, the syndrome -/
  | decSynO
  /-- `dec_cc_o`, the block after correction -/
  | decCcO
  /-- `dec_err_o`, the syndrome is not 0 -/
  | decErrO
  /-- `dec_oor_o`, the syndrome is greater than `n` -/
  | decOorO
deriving DecidableEq, Repr, Inhabited

/-- What a wire of a four-valued simulator can show (R58, D9): the two Bits, and two values that are neither. -/
inductive Level where
  | low
  | high
  | unknown
  | highImpedance
deriving DecidableEq, Repr, Inhabited

end Sys2Proof
end

