-- ==== Sys2Proof/Config.lean ====
section
/-! DEFINITION. What is fixed for one model run and the values the spec leaves free. -/

namespace Sys2Proof

/-- BlockSize of the instance that `State.reset` shows. DESIGN CHOICE (log 1): the spec gives the parameter no
value (R8, N2); 8 is the size of the source's own scenario (S1). No meaning reads this constant: every one reads
the `n` of its state. -/
def Config.resetBlockSize : Nat := 8

/-- What a TAIL_POLICY that the spec only calls "others" makes of the open end of a decoded Bitstream (R111, D14).
FREE VALUE (log 13): the first argument numbers the policy, the second is the open end. -/
opaque Config.otherTailText : Nat → Bits → List Char

/-- What is left when `cut_to_original_length` is given a length that is no multiple of 8: the text of the short
last chunk (R111). FREE VALUE (log 13). -/
opaque Config.shortChunkText : Bits → List Char

/-- The level of one output wire while some input wire of its unit is neither 0 nor 1 (R58, U12: "any value on
every output"). FREE VALUE (log 15): arguments are the output port, the levels on the unit's input port and the
wire number. -/
opaque Config.unspecifiedLevel : Port → List Level → Nat → Level

end Sys2Proof
end

