-- ==== Sys2Proof/Machine/Params.lean ====
section
/-! DEFINITION. The parameters derived from BlockSize and the position map of a block (R9 to R14, R46 to R48). -/

namespace Sys2Proof.Machine

/-- `flog2(n)` (R9): the index of the most significant 1 of `n`, an exact integer function (D19). -/
def flog2 (n : Nat) : Nat := Nat.log2 n

/-- ParityCount `r = floor(log2(n))` (R9). One less than the number of parity positions (R12). -/
def parityCount (n : Nat) : Nat := flog2 n

/-- DataCount `k = n - r - 1` (R10). -/
def dataCount (n : Nat) : Nat := n - parityCount n - 1

/-- `sw = r + 1`, the number of bits of a syndrome (R14). -/
def syndromeWidth (n : Nat) : Nat := parityCount n + 1

/-- A block size is valid exactly when `n >= 3` (R11). -/
abbrev ValidBlockSize (n : Nat) : Prop := 3 ≤ n

/-- `isPow2(p)`: `p >= 1` and `p & (p - 1) = 0` (R18). -/
def isPow2 (p : Nat) : Bool := decide (1 ≤ p) && (p &&& (p - 1)) == 0

/-- Position space `1, 2, ..., n`, ascending (R32 (a)). -/
def positions (n : Nat) : List Nat := List.range' 1 n

/-- `PPOS(n) = { 2^j : 0 <= j <= r }`, ascending (R12). -/
def parityPositions (n : Nat) : List Nat := (List.range (parityCount n + 1)).map (fun j => 2 ^ j)

/-- `DPOS(n)`: the positions of a block that are not powers of two, ascending (R13). -/
def dataPositions (n : Nat) : List Nat := (positions n).filter (fun p => !isPow2 p)

/-- `cover(P, n) = { i : 1 <= i <= n and i & P != 0 }`, ascending (R18, R48). -/
def cover (P n : Nat) : List Nat := (positions n).filter (fun i => i &&& P != 0)

/-- The least `m` at or above the given one with `2^m > j + m`, looked for over the given number of candidates. -/
def leastExponent : Nat → Nat → Nat → Nat
  | 0, m, _ => m
  | fuel + 1, m, j => if j + m < 2 ^ m then m else leastExponent fuel (m + 1) j

/-- `dpos(j)` by the closed form R47 (b): `j + m` where `m` is the least integer with `2^m > j + m`. It does not
depend on `n`. The bound `j + 2` on the search is never reached for `j >= 1`. -/
def dpos (j : Nat) : Nat := j + leastExponent (j + 2) 0 j

/-- `place(p) = p - flog2(p) - 1`, the place of the data Bit at a data position (R47). -/
def place (p : Nat) : Nat := p - flog2 p - 1

/-- The layout string of a block (R46): `p` at parity positions, `d` at data positions. -/
def layout (n : Nat) : List Char := (positions n).map (fun p => if isPow2 p then 'p' else 'd')

/-- A classical size: `n = 2^m - 1` for an integer `m >= 2` (R20, C3). -/
def isClassicalSize (n : Nat) : Bool := decide (3 ≤ n) && isPow2 (n + 1)

/-- The width of a port of an instance of size `n` (R54). -/
def portWidth (n : Nat) : Port → Nat
  | .encDI => dataCount n
  | .encCO => n
  | .decCI => n
  | .decDO => dataCount n
  | .decSynO => syndromeWidth n
  | .decCcO => n
  | .decErrO => 1
  | .decOorO => 1

end Sys2Proof.Machine
end

