-- ==== Sys2Proof/Syntax.lean ====
section
/-! DEFINITION. The operations of the block, one constructor per row of spec/opcode_table.json. -/

namespace Sys2Proof

/-- A block operation with its operand (R55, R61). BlockSize is no operand: it is the static parameter of the
instance that the operation is given to (R26, D2). -/
inductive Instr where
  /-- `ENC n, "<k Bits>"` (R63, R65): `d` is the data word, place 1 first. -/
  | enc (d : Bits)
  /-- `DEC n, "<n Bits>"` (R75, R77): `c` is the received block, position 1 first. -/
  | dec (c : Bits)
deriving DecidableEq, Repr

end Sys2Proof
end

