-- ==== Sys2Proof/WellFormed.lean ====
section
/-! DEFINITION. When an operation is one of an instance of size n: the check of its operand's length. -/

namespace Sys2Proof

/-- The operand of an operation. -/
def Instr.operand : Instr → Bits
  | .enc d => d
  | .dec c => c

/-- The port the operand of an operation stands on (R54). -/
def Instr.inputPort : Instr → Port
  | .enc _ => .encDI
  | .dec _ => .decCI

/-- An operation is well formed for size `n` when its operand has exactly the length of the port it goes to: `k`
for ENC (R40, R63) and `n` for DEC (R39, R75). "An operation whose operand string has the wrong length ... is not
an operation" (R61). -/
def Instr.wf (n : Nat) (i : Instr) : Bool := i.operand.length == Machine.portWidth n i.inputPort

end Sys2Proof
end

