-- ==== Sys2Proof/Decode.lean ====
section
/-! DEFINITION. Operation words: the one-bit tag of the operation table followed by the operand; decoder and encoder.

Layout (log 5): bit 0 of a word is the operation tag `op` of R55 (0 is ENC, 1 is DEC); bit `p` for `p >= 1` is
position or place `p` of the operand, so the wires of the operand's port keep their order (R34). -/

namespace Sys2Proof

/-- Why a word is no operation word of an instance. -/
inductive DecodeError where
  /-- The word is empty: there is no tag to read. Raised by `decode`; safe. -/
  | noOperationTag
  /-- The operand has `got` Bits and its port has `want` wires (R58, R61). Raised by `decode`; safe. -/
  | operandLength (got want : Nat)
deriving DecidableEq, Repr

/-- The operation a tag selects, given its operand (R55). -/
def ofTag (op : Bit) (operand : Bits) : Instr := if op then .dec operand else .enc operand

/-- Reads a word for an instance of size `n`. Total; every tag is an operation, so only the length can be wrong. -/
def decode (n : Nat) : Bits → Except DecodeError Instr
  | [] => .error .noOperationTag
  | op :: operand =>
    let i := ofTag op operand
    if i.wf n then .ok i
    else .error (.operandLength operand.length (Machine.portWidth n i.inputPort))

/-- The operation tag of an operation (R55, R64, R76). -/
def Instr.tag : Instr → Bit
  | .enc _ => false
  | .dec _ => true

/-- The word of an operation: "its operation tag ... and operand" (95_test_vectors.md Part P). -/
def encode (i : Instr) : Bits := i.tag :: i.operand

/-- The number whose binary digits are the given Bits, the head being the digit of weight 1. -/
def wordValue : Bits → Nat
  | [] => 0
  | b :: bs => b.toNat + 2 * wordValue bs

/-- The word of an operation as a number: bit 0 the tag, bit `p` position `p` of the operand. -/
def encodeWord (i : Instr) : Nat := wordValue (encode i)

/-- The Bits of weights `2^0` to `2^(len - 1)` of a number, least significant first. -/
def lowBits (len w : Nat) : Bits := (List.range len).map w.testBit

/-- How many Bits the word of the operation with this tag has in an instance of size `n`. -/
def wordLength (n : Nat) (op : Bit) : Nat := 1 + Machine.portWidth n (ofTag op []).inputPort

/-- The Bits of the operation word that stands at the low end of a number of `nbits` bits: the tag selects how
many operand wires follow, and every bit at or above `nbits` is 0. Bits above the last operand wire are on no wire
and are dropped (log 8). -/
def tableWordBits (n nbits w : Nat) : Bits :=
  let v := w % 2 ^ nbits
  lowBits (wordLength n (v.testBit 0)) v

/-- Reads an operation from a number, for an instance of size `n`. The spec gives no numeric operation word. DESIGN
CHOICE (log 5): digits above the last operand Bit are on no wire and are dropped, so a number with such digits reads
as the operation of its low Bits; `encodeWord` gives none of them. -/
def decodeWord (n w : Nat) : Except DecodeError Instr :=
  decode n (lowBits (wordLength n (w.testBit 0)) w)

/-- The operation read from a word of the operation table, for the instance that `State.reset` shows. -/
def decodeTableWord (nbits w : Nat) : Option Instr :=
  match decode Config.resetBlockSize (tableWordBits Config.resetBlockSize nbits w) with
  | .ok i => some i
  | .error _ => none

end Sys2Proof
end

