-- ==== Sys2Proof/Machine/State.lean ====
section
/-! DEFINITION. The empty state of the block with the configuration and the environment around it, the two errors, the
refusals, and reset. -/

namespace Sys2Proof.Machine

/-- The errors that are raised (R116, R123). The source's third name, UncorrectableError, is never raised (R121). -/
inductive Fault where
  /-- `InvalidConfiguration(n)`: the block size is below 3 (R117). Raised when an instance is built and by
  ENCSTREAM and DECSTREAM; `exec` and `step` answer it in a state whose `n` is no block size (log 7), and reading an
  operation line with such an `n` does (log 24). Safe. -/
  | invalidConfiguration (n : Int)
  /-- `InvalidBlockFormat(index)`: the candidate block at this index, counted from 1, is not exactly `n` characters
  0 or 1 (R118). Raised by PARSEBLK and DECSTREAM. Safe. -/
  | invalidBlockFormat (index : Nat)
deriving DecidableEq, Repr

/-- Inputs to which the model gives no meaning. -/
inductive Refusal where
  /-- An instruction that has no meaning yet; raised by no arm of this model. Safe. -/
  | notModelled (mnemonic : String)
  /-- The next issued word is no operation word of this instance (R61); raised by `step`. Safe (log 6). -/
  | notAnOperationWord (e : DecodeError)
  /-- An operand of `got` Bits cannot stand on a port of `want` wires (R58, R119); raised by `exec`. Safe (log 6). -/
  | operandNotPortWidth (p : Port) (got want : Nat)
  /-- A line that is not in the notation of R61; raised when an operation line is read. Safe (log 18). -/
  | notAnOperationLine
  /-- FLIP with a position outside `1..n` (U10); raised by FLIP and INJECT. Safe. -/
  | flipPositionOutside (i n : Nat)
  /-- INJECT without exactly one position per block (R114); raised by INJECT. Safe (log 14). -/
  | notOnePositionPerBlock (blocks given : Nat)
  /-- A character whose code point does not fit 8 digits (R109, U9); raised by TXT2BITS. Safe. -/
  | codePointAbove255 (code : Nat)
deriving DecidableEq, Repr

/-- The state of the block: the empty record (R22). It has no register, flag, memory or hidden state (R23 to R29). -/
structure BlockState where
deriving DecidableEq, Repr

/-- The configuration of an instance, which is no state (R26, R30 (a)): every function of the block takes it as an
argument, and no step writes it (R147). -/
structure Instance where
  /-- BlockSize, the static parameter (R8) -/
  n : Nat
deriving DecidableEq, Repr

/-- What the environment keeps around the block, which is no state of the block (R30 (b), (d)): the operations it has
still to do, and the operands it holds on the two input ports until it has taken the results (R148). -/
structure Environment where
  /-- the operation words still to be issued, in the environment's order (R24; the model's own field, log 4) -/
  issue : List Bits
  /-- port `enc_d_i`, the operand of ENC -/
  encDI : Bits
  /-- port `dec_c_i`, the operand of DEC -/
  decCI : Bits
deriving DecidableEq, Repr

/-- The state of the block, which is empty (R22), with the two things around it that a step needs and that are no
state of the block (R30; log 2): the configuration and what the environment holds. No result is stored: the six
outputs are functions of the present inputs and of `n` in EVERY state (`State.encCO`, `State.decDO`,
`State.decSynO`, `State.decCcO`, `State.decErrO`, `State.decOorO`), as R22, R25 and R30 (c) say. -/
structure State extends Instance, Environment where
  /-- the state of the block -/
  block : BlockState
deriving DecidableEq, Repr

/-- An instance of size `Config.resetBlockSize` (log 1) to which no operation has been issued (log 4), with 0 on
every input wire (log 3). The block has nothing to reset (R31, R138). -/
def State.reset : State where
  n := Config.resetBlockSize
  issue := []
  encDI := List.replicate 4 false
  decCI := List.replicate 8 false
  block := { }

end Sys2Proof.Machine
end

