-- ==== Sys2Proof/Machine/Ops.lean ====
section
/-! DEFINITION. The sequence primitives of R18, raising an error, the configuration check, and fetching the next
operation word. -/

namespace Sys2Proof.Machine

/-- `s[p]`: the Bit at 1-indexed position `p`, "defined only for 1 <= p <= len(s)" (R18). Outside that range this
total function answers 0, and no operation on a fitting operand reads there (log 17). -/
def bitAt (s : Bits) : Nat → Bit
  | 0 => false
  | q + 1 => s.getD q false

/-- `s[p] <- v` (R18): position `p` replaced by `v`, every other position unchanged. -/
def setAt (s : Bits) (p : Nat) (v : Bit) : Bits :=
  match p with
  | 0 => s
  | q + 1 => s.set q v

/-- Position `p` inverted, every other position unchanged (R81, R114). -/
def flipAt (s : Bits) (p : Nat) : Bits := setAt s p (!bitAt s p)

/-- `s[a..b]`: positions `a` to `b` inclusive, in order; empty when `b < a` (R18). R18 gives no slice that leaves the
sequence; DESIGN CHOICE (log 17): past the last position this one ends there, and for `a = 0` it begins at position 1
and has up to `b + 1` Bits. ENCSTREAM takes no such slice. -/
def subseq (s : Bits) (a b : Nat) : Bits := (s.drop (a - 1)).take (b + 1 - a)

/-- `zeros(m)` (R18). -/
def zeros (m : Nat) : Bits := List.replicate m false

/-- `XOR{ e : e in the list }`; 0 for the empty list (R18). -/
def xorAll (es : Bits) : Bit := es.foldr Bool.xor false

/-- `XOR{ s[i] : i in S }` (R18). -/
def xorOver (s : Bits) (S : List Nat) : Bit := xorAll (S.map (bitAt s))

/-- `ceil(a / b)`, the least integer not below `a / b` (R18). -/
def ceilDiv (a b : Nat) : Nat := (a + b - 1) / b

/-- `raise <Error>(info)`: the operation ends with the named error and produces no other result (R18, R120). This
is the whole of what an error does: no state is saved and no handler is entered (R127). -/
def raise {α : Type} (e : Fault) : Host.Outcome α Fault Refusal := .fault e

/-- Goes on with the result of an operation; an error or a refusal is the result of the whole (R120, R128). -/
def andThen {α β : Type} (o : Host.Outcome α Fault Refusal) (f : α → Host.Outcome β Fault Refusal) :
    Host.Outcome β Fault Refusal :=
  match o with
  | .next a => f a
  | .fault e => .fault e
  | .refused r => .refused r

/-- The configuration check at the boundary (R117): `InvalidConfiguration(n)` unless `n >= 3`. The argument is any
integer, so that 0 and negative numbers are refused too (R56). -/
def withBlockSize {α : Type} (n : Int) (f : Nat → Host.Outcome α Fault Refusal) : Host.Outcome α Fault Refusal :=
  if 3 ≤ n then f n.toNat else raise (.invalidConfiguration n)

/-- The word the environment issues next, and the state without it; none when it issues no more. -/
def fetch (s : State) : Option (Bits × State) :=
  match s.issue with
  | [] => none
  | w :: rest => some (w, { s with issue := rest })

end Sys2Proof.Machine
end

