-- ==== Sys2Proof/Machine/Flags.lean ====
section
/-! DEFINITION. The two status outputs of DEC (R52, R85). ENC writes no flag (R71) and none is stored (R25). -/

namespace Sys2Proof.Machine

/-- `dec_err_o`: 1 exactly when the syndrome is not 0 (R52, R85). -/
def errFlag (syn : Nat) : Bit := syn != 0

/-- `dec_oor_o`: 1 exactly when the syndrome is greater than `n` (R52, R85). -/
def oorFlag (n syn : Nat) : Bit := decide (n < syn)

end Sys2Proof.Machine
end

