-- ==== Sys2Proof/Machine/Operands.lean ====
section
/-! DEFINITION. How an operand comes to an input port of an instance (R54, R58). -/

namespace Sys2Proof.Machine

/-- Presents an operand at an input port of the instance and answers the given state as the next one. The instance
must exist (R117: "no block with n < 3 exists") and the operand must have one Bit per wire of the port (R58). Both
operand forms, the data word of ENC and the block of DEC, come in this way. -/
def presentOperand (p : Port) (x : Bits) (s t : State) : Host.Outcome State Fault Refusal :=
  withBlockSize s.n fun m =>
    if x.length = portWidth m p then .next t
    else .refused (.operandNotPortWidth p x.length (portWidth m p))

end Sys2Proof.Machine
end

