-- ==== Sys2Proof/Machine/Decoder.lean ====
section
/-! DEFINITION. The decoder unit DEC (41_decoder.md): SYND, CORR, EXTRACT, and the meaning of the operation DEC. -/

namespace Sys2Proof.Machine

/-- One check of SYND: add `P` when the exclusive-or over `cover(P, n)` is 1 (R77, R78). -/
def syndStep (n : Nat) (c : Bits) (s P : Nat) : Nat := if xorOver c (cover P n) then s + P else s

/-- Stage SYND over the powers of two `2^0 .. 2^(len - 1)` (R78, R79). -/
def syndromeUpTo (len n : Nat) (c : Bits) : Nat :=
  ((List.range len).map (fun j => 2 ^ j)).foldl (syndStep n c) 0

/-- Stage SYND: `P` in `1, 2, 4, ..., 2^r` (R77, R78). -/
def syndrome (n : Nat) (c : Bits) : Nat := syndromeUpTo (parityCount n + 1) n c

/-- Stage CORR: invert position `s` when there is one, else change nothing (R77, R81, R82). -/
def correct (n : Nat) (c : Bits) (s : Nat) : Bits := if 1 ≤ s ∧ s ≤ n then flipAt c s else c

/-- Stage EXTRACT: the Bits at the data positions, ascending (R77, R83). -/
def extract (n : Nat) (cc : Bits) : Bits := (dataPositions n).map (bitAt cc)

/-- The five results of DEC (R75). -/
structure DecResult where
  data : Bits
  syn : Nat
  cc : Bits
  err : Bit
  oor : Bit
deriving DecidableEq, Repr

/-- `DEC(c, n)` (R77). -/
def decBlock (n : Nat) (c : Bits) : DecResult :=
  let s := syndrome n c
  let cc := correct n c s
  { data := extract n cc, syn := s, cc := cc, err := errFlag s, oor := oorFlag n s }

/-- What the unit DEC computes, all the time, from its present input and `n` alone (R22, R54). -/
def State.decResult (s : State) : DecResult := decBlock s.n s.decCI

/-- Port `dec_d_o`: the decoded data word. -/
def State.decDO (s : State) : Bits := s.decResult.data

/-- Port `dec_syn_o`: the syndrome as an integer (R14). -/
def State.decSynO (s : State) : Nat := s.decResult.syn

/-- Port `dec_cc_o`: the corrected block. -/
def State.decCcO (s : State) : Bits := s.decResult.cc

/-- Port `dec_err_o`; not sticky and not stored (R25). -/
def State.decErrO (s : State) : Bit := s.decResult.err

/-- Port `dec_oor_o`; not sticky and not stored (R25). -/
def State.decOorO (s : State) : Bit := s.decResult.oor

/-- The meaning of DEC (R75, R77): the block is presented on `dec_c_i`, and the five outputs of the unit
(`State.decDO` and the four after it) carry the results `decBlock n c` in the next state. It reads nothing else and
writes nothing else. No operand traps (R59, R93). -/
def execDec (c : Bits) (s : State) : Host.Outcome State Fault Refusal :=
  presentOperand .decCI c s { s with decCI := c }

end Sys2Proof.Machine
end

