-- ==== Sys2Proof/Machine/Encoder.lean ====
section
/-! DEFINITION. The encoder unit ENC (40_encoder.md): PLACE, PARGEN, and the meaning of the operation ENC. -/

namespace Sys2Proof.Machine

/-- Stage PLACE over an ascending list of positions, with the value `q` of a placeholder left open: "place the next
unused data Bit into every position that is not a power of two" (R66). -/
def placeWith (q : Bit) : List Nat → Bits → Bits
  | [], _ => []
  | p :: ps, d => if isPow2 p then q :: placeWith q ps d else bitAt d 1 :: placeWith q ps d.tail

/-- Stage PLACE: the placeholder is 0 (R66, R67). -/
def placeData (n : Nat) (d : Bits) : Bits := placeWith false (positions n) d

/-- One step of PARGEN: `c[P] <- XOR{ c[i] : i in cover(P, n) }` on the block as it stands (R68). -/
def parityStep (n : Nat) (c : Bits) (P : Nat) : Bits := setAt c P (xorOver c (cover P n))

/-- Stage PARGEN over the parity positions in the given order (R65, R69). -/
def parGenIn (n : Nat) (order : List Nat) (c : Bits) : Bits := order.foldl (parityStep n) c

/-- Stage PARGEN: `P` in `1, 2, 4, ..., 2^r` (R65, R68). -/
def parGen (n : Nat) (c : Bits) : Bits := parGenIn n (parityPositions n) c

/-- `ENC(d, n)` (R65). -/
def encBlock (n : Nat) (d : Bits) : Bits := parGen n (placeData n d)

/-- Port `enc_c_o`: the unit ENC computes all the time, from its present input and `n` alone (R22, R54). -/
def State.encCO (s : State) : Bits := encBlock s.n s.encDI

/-- The meaning of ENC (R63, R65): the data word is presented on `enc_d_i`, and `enc_c_o` (`State.encCO`) carries its
code word `encBlock n d` in the next state. It reads nothing else and writes nothing else. -/
def execEnc (d : Bits) (s : State) : Host.Outcome State Fault Refusal :=
  presentOperand .encDI d s { s with encDI := d }

end Sys2Proof.Machine
end

