-- ==== Sys2Proof/Machine/Step.lean ====
section
/-! DEFINITION. One step: the environment issues its next operation and the block evaluates it. -/

namespace Sys2Proof.Machine

/-- One step of the instance: take the next issued word, read it, evaluate it (R41, R152: "an operation is one
step"). When the environment issues nothing, nothing changes (log 4). A state whose `n` is no block size is no
instance (R117, log 7). A word that is no operation of this instance is refused (log 6). -/
def step (s : State) : Host.Outcome State Fault Refusal :=
  withBlockSize s.n fun m =>
    match fetch s with
    | none => .next s
    | some (w, t) =>
      match decode m w with
      | .ok i => exec i t
      | .error e => .refused (.notAnOperationWord e)

/-- The state in which the environment issues the operation of this table word next (log 8). -/
def State.withFetchWord (s : State) (nbits w : Nat) : State :=
  { s with issue := tableWordBits s.n nbits w :: s.issue }

end Sys2Proof.Machine
end

