-- ==== Sys2Proof/Machine/Ports.lean ====
section
/-! DEFINITION. The eight ports of an instance as wires (R34, R54). -/

namespace Sys2Proof.Machine

/-- The wires of a port in wire order: wire `p - 1` carries position or place `p`, wire `j` of `dec_syn_o` the
syndrome bit of weight `2^j` (R34). -/
def State.port (s : State) : Port → Bits
  | .encDI => s.encDI
  | .encCO => s.encCO
  | .decCI => s.decCI
  | .decDO => s.decDO
  | .decSynO => lowBits (syndromeWidth s.n) s.decSynO
  | .decCcO => s.decCcO
  | .decErrO => [s.decErrO]
  | .decOorO => [s.decOorO]

/-- The wires of a port read as a binary number, wire 0 the least significant (V15). -/
def State.portValue (s : State) (p : Port) : Nat := wordValue (s.port p)

end Sys2Proof.Machine
end

