-- ==== Sys2Proof/Machine/Build.lean ====
section
/-! DEFINITION. Building an instance of a given block size (R117, R141). -/

namespace Sys2Proof.Machine

/-- The instance of size `n` with the given words to issue and the given Bits on its two input ports. -/
def instanceState (n : Nat) (issue : List Bits) (d c : Bits) : State :=
  { n := n, issue := issue, encDI := d, decCI := c, block := { } }

/-- Building an instance: refused with `InvalidConfiguration(n)` when `n < 3` (R117). A new instance has 0 on every
input wire (log 3) and no operation to do (log 4). -/
def buildInstance (n : Int) : Host.Outcome State Fault Refusal :=
  withBlockSize n fun m => .next (instanceState m [] (zeros (dataCount m)) (zeros m))

end Sys2Proof.Machine
end

