-- ==== Sys2Proof/Machine/Lines.lean ====
section
/-! DEFINITION. PRINTBLK and PARSEBLK: a block to and from a line of characters (R53, R112, R113). -/

namespace Sys2Proof.Machine

/-- The character of a Bit. -/
def bitChar (b : Bit) : Char := if b then '1' else '0'

/-- PRINTBLK: a line of exactly `n` characters, character `p` being position `p` (R112). The line terminator is the
file adapter's (D15). -/
def printBlk (c : Bits) : List Char := c.map bitChar

/-- A line is a block of size `n` when it is "exactly `n` characters of 0/1" (R53, R113, R118). -/
def isBlockLine (n : Nat) (line : List Char) : Bool :=
  line.length == n && line.all (fun ch => ch == '0' || ch == '1')

/-- The Bits of a line of 0 and 1. -/
def lineBits (line : List Char) : Bits := line.map (fun ch => ch == '1')

/-- PARSEBLK (R113), for the line at the given index of its run: `InvalidBlockFormat` with that index (log 11)
when the line is not exactly `n` characters 0 or 1. DESIGN CHOICE (log 23): R124 has no entry for PARSEBLK and
`InvalidConfiguration`, and there is no configuration check here, so for an `n` below 3 a line of exactly `n`
characters 0 or 1 is accepted. -/
def parseBlk (n index : Nat) (line : List Char) : Host.Outcome Bits Fault Refusal :=
  if isBlockLine n line then .next (lineBits line) else raise (.invalidBlockFormat index)

end Sys2Proof.Machine
end

