-- ==== Sys2Proof/Machine/Stream.lean ====
section
/-! DEFINITION. The stream operations ENCSTREAM and DECSTREAM of the environment (42_stream_ops.md R98 to R107). -/

namespace Sys2Proof.Machine

/-- `G = ceil(L / k)`, the number of groups of a Bitstream of `L` Bits (R97, R98). -/
def groupCount (n L : Nat) : Nat := ceilDiv L (dataCount n)

/-- Group `g`, before padding: Bits `(g - 1) * k + 1` to `min(g * k, L)` (R98, R99). -/
def rawGroup (n : Nat) (B : Bits) (g : Nat) : Bits :=
  subseq B ((g - 1) * dataCount n + 1) (min (g * dataCount n) B.length)

/-- Right-padding with zero Bits to length `k` (R98, R100). -/
def padGroup (n : Nat) (grp : Bits) : Bits := grp ++ zeros (dataCount n - grp.length)

/-- `pad = (k - (L mod k)) mod k`, the number of pad Bits (R100). -/
def padCount (n L : Nat) : Nat := (dataCount n - L % dataCount n) % dataCount n

/-- The padded groups of a Bitstream, in order (R98 to R100). -/
def dataGroups (n : Nat) (B : Bits) : List Bits :=
  (List.range' 1 (groupCount n B.length)).map fun g => padGroup n (rawGroup n B g)

/-- ENCSTREAM (R98): one ENC per group, in order; `InvalidConfiguration` before any group is formed (R102). -/
def encStream (n : Int) (B : Bits) : Host.Outcome (List Bits) Fault Refusal :=
  withBlockSize n fun m => .next ((dataGroups m B).map (encBlock m))

/-- The lowest index, counted from 1, of a candidate that is no block of size `n` (R103, R118). -/
def firstMalformed (n : Nat) (Q : List (List Char)) : Option Nat :=
  (Q.findIdx? (fun line => !isBlockLine n line)).map (· + 1)

/-- The DEC operations of a run over candidate blocks, given as lines (log 10): all format checks come first and
one malformed candidate ends the whole run (R103, R104, R120); then one DEC per block, in order (R105). The
configuration is judged before any block (R126). -/
def decRun (n : Int) (Q : List (List Char)) : Host.Outcome (List DecResult) Fault Refusal :=
  withBlockSize n fun m =>
    match firstMalformed m Q with
    | some g => raise (.invalidBlockFormat g)
    | none => .next (Q.map fun line => decBlock m (lineBits line))

/-- DECSTREAM (R103, R105): the decoded groups of the run concatenated in block order. -/
def decStream (n : Int) (Q : List (List Char)) : Host.Outcome Bits Fault Refusal :=
  andThen (decRun n Q) fun rs => .next (rs.flatMap DecResult.data)

/-- The environment cuts a flat Bit sequence into pieces of `n`, the last one possibly shorter (R94). -/
def cutFlat (n : Nat) (B : Bits) : List Bits :=
  (List.range (ceilDiv B.length n)).map fun g => (B.drop (g * n)).take n

/-- The environment cuts a decoded Bitstream back to the length it kept (R143). DESIGN CHOICE (log 25): a Bitstream
shorter than that length stays whole. -/
def cutToLength (L : Nat) (B : Bits) : Bits := B.take L

end Sys2Proof.Machine
end

