-- ==== Sys2Proof/Machine/Injector.lean ====
section
/-! DEFINITION. The fault injector of the test bench (R114), and the whole system as one straight line (R97). -/

namespace Sys2Proof.Machine

/-- `FLIP(c, i)`: position `i` of the block inverted, all others unchanged; refused outside `1..n` (R114, U10). -/
def flipBlk (c : Bits) (i : Nat) : Host.Outcome Bits Fault Refusal :=
  if 1 ≤ i ∧ i ≤ c.length then .next (flipAt c i) else .refused (.flipPositionOutside i c.length)

/-- FLIP of every block at its own position, once there is one position per block. -/
def injectEach : List Bits → List Nat → Host.Outcome (List Bits) Fault Refusal
  | c :: Q, i :: is => andThen (flipBlk c i) fun c' => andThen (injectEach Q is) fun Q' => .next (c' :: Q')
  | _, _ => .next []

/-- `INJECT(Q, [i_1, ..., i_G])` (R114): the positions are inputs of the caller (D13), one per block (log 14). -/
def inject (Q : List Bits) (is : List Nat) : Host.Outcome (List Bits) Fault Refusal :=
  if Q.length = is.length then injectEach Q is else .refused (.notOnePositionPerBlock Q.length is.length)

/-- The optional fault injector of the straight line: no positions, no injector (R97). -/
def injectMaybe (Q : List Bits) : Option (List Nat) → Host.Outcome (List Bits) Fault Refusal
  | none => .next Q
  | some is => inject Q is

/-- "bitstream → BlockEncoder → sequence of encoded blocks → (optional FaultInjector) → BlockDecoder →
reconstructed bitstream" (R97), the blocks handed over in their persisted form, one line per block (R53). -/
def straightLine (n : Int) (B : Bits) (inj : Option (List Nat)) : Host.Outcome Bits Fault Refusal :=
  andThen (encStream n B) fun Q => andThen (injectMaybe Q inj) fun Q' => decStream n (Q'.map printBlk)

end Sys2Proof.Machine
end

