-- ==== Sys2Proof/Machine/Levels.lean ====
section
/-! DEFINITION. The ports under a four-valued simulator: two-valued inputs give the outputs of the block, any other
input level leaves every output of the unit unspecified (R58, D9, U12; log 15). -/

namespace Sys2Proof.Machine

/-- The level of a Bit. -/
def bitLevel (b : Bit) : Level := if b then .high else .low

/-- The Bit of a level, none for unknown and high impedance. -/
def levelBit : Level → Option Bit
  | .low => some false
  | .high => some true
  | .unknown => none
  | .highImpedance => none

/-- The Bits of the levels on a port, none when some wire is neither 0 nor 1. -/
def levelBits (ls : List Level) : Option Bits := ls.mapM levelBit

/-- The levels on the wires of a port of an instance of size `n` while the two input ports carry the given levels. -/
def portLevels (n : Nat) (dIn cIn : List Level) (p : Port) : List Level :=
  match p with
  | .encDI => dIn
  | .decCI => cIn
  | .encCO =>
    match levelBits dIn with
    | some d => (encBlock n d).map bitLevel
    | none => (List.range (portWidth n p)).map (Config.unspecifiedLevel p dIn)
  | _ =>
    match levelBits cIn with
    | some c => ((instanceState n [] [] c).port p).map bitLevel
    | none => (List.range (portWidth n p)).map (Config.unspecifiedLevel p cIn)

end Sys2Proof.Machine
end

