-- ==== Sys2Proof/Machine/Netlist.lean ====
section
/-! DEFINITION. The structure R153 gives for the two units: XOR trees, the select decoder, the status gates
(DEDUCED, log 19). It is a second description of ENC and DEC; the meanings do not use it. -/

namespace Sys2Proof.Machine

/-- The places whose data positions a parity position covers: the inputs of its XOR tree in ENC (R69, R70, R153). -/
def encTreePlaces (n P : Nat) : List Nat :=
  (List.range' 1 (dataCount n)).filter fun j => dpos j &&& P != 0

/-- One wire of `enc_c_o`: an XOR tree over data wires at a parity position, a plain wire at a data position. -/
def encWire (n : Nat) (d : Bits) (p : Nat) : Bit :=
  if isPow2 p then xorOver d (encTreePlaces n p) else bitAt d (place p)

/-- ENC as a netlist. -/
def encNet (n : Nat) (d : Bits) : Bits := (positions n).map (encWire n d)

/-- One syndrome wire of DEC: the XOR tree over `cover(2^j, n)`. -/
def synWire (n : Nat) (c : Bits) (j : Nat) : Bit := xorOver c (cover (2 ^ j) n)

/-- The select line of position `p`: every syndrome wire equals the binary digit of `p`. -/
def selectLine (n : Nat) (c : Bits) (p : Nat) : Bit :=
  (List.range (syndromeWidth n)).all fun j => synWire n c j == p.testBit j

/-- One wire of `dec_cc_o`: an XOR that inverts the selected Bit. -/
def ccWire (n : Nat) (c : Bits) (p : Nat) : Bit := Bool.xor (bitAt c p) (selectLine n c p)

/-- DEC as a netlist: `err` is the OR of the syndrome wires, `oor` a comparison with `n`. -/
def decNet (n : Nat) (c : Bits) : DecResult :=
  let wires := (List.range (syndromeWidth n)).map (synWire n c)
  { data := (dataPositions n).map (ccWire n c)
    syn := wordValue wires
    cc := (positions n).map (ccWire n c)
    err := wires.any id
    oor := decide (n < wordValue wires) }

/-- The number of inputs of the XOR tree of `P` in ENC: `|cover(P, n)| - 1` (R153). -/
def encTreeInputs (n P : Nat) : Nat := (cover P n).length - 1

/-- The number of inputs of the XOR tree of `P` in DEC: `|cover(P, n)|` (R153). -/
def decTreeInputs (n P : Nat) : Nat := (cover P n).length

end Sys2Proof.Machine
end

