-- ==== Sys2Proof/Machine/Notation.lean ====
section
/-! DEFINITION. The textual notation of operations (R61, D16): writing an operation and its result, reading an
operation. -/

namespace Sys2Proof.Machine

/-- The decimal digits of a number, most significant first. -/
def decimal (n : Nat) : List Char := if n = 0 then ['0'] else (Nat.digits 10 n).reverse.map Nat.digitChar

/-- The number that decimal digits stand for, none when a character is no digit or there is none. -/
def decimalValue (ds : List Char) : Option Nat :=
  if !ds.isEmpty && ds.all Char.isDigit then some (ds.foldl (fun a ch => 10 * a + (ch.toNat - 48)) 0) else none

/-- The mnemonic of an operation. -/
def mnemonic : Instr → List Char
  | .enc _ => ['E', 'N', 'C']
  | .dec _ => ['D', 'E', 'C']

/-- A Bit sequence in double quotes (R17). -/
def quoted (b : Bits) : List Char := '"' :: printBlk b ++ ['"']

/-- The operation part of a line, `ENC n, "..."` or `DEC n, "..."` (R61), with single blanks (log 18). -/
def printOp (n : Nat) (i : Instr) : List Char :=
  mnemonic i ++ ' ' :: decimal n ++ ',' :: ' ' :: quoted i.operand

/-- The result part of a line after `=>` (R61): "the result the rules give". -/
def printResult (n : Nat) : Instr → List Char
  | .enc d => quoted (encBlock n d)
  | .dec c =>
    let r := decBlock n c
    quoted r.data ++ [' ', 's', 'y', 'n', '='] ++ decimal r.syn ++ [' ', 'c', 'c', '='] ++ quoted r.cc ++
      [' ', 'e', 'r', 'r', '=', bitChar r.err] ++ [' ', 'o', 'o', 'r', '=', bitChar r.oor]

/-- The whole line of an operation and its result (R61). -/
def printLine (n : Nat) (i : Instr) : List Char := printOp n i ++ [' ', '=', '>', ' '] ++ printResult n i

/-- Reads the operand string: what stands between the quotes must be a line of 0 and 1 as long as the port of the
operation is wide; what comes after the closing quote must be blanks. -/
def readOperand (n : Nat) (op : Bit) (text : List Char) : Host.Outcome (Nat × Instr) Fault Refusal :=
  match text.dropWhile (· == ' ') with
  | '"' :: rest =>
    let line := rest.takeWhile (· != '"')
    match rest.dropWhile (· != '"') with
    | '"' :: after =>
      if isBlockLine (portWidth n (ofTag op []).inputPort) line && after.all (· == ' ') then
        .next (n, ofTag op (lineBits line))
      else .refused .notAnOperationLine
    | _ => .refused .notAnOperationLine
  | _ => .refused .notAnOperationLine

/-- Reads the decimal size, the comma and the operand. DESIGN CHOICE (log 24): the spec does not say what reading a
line with a size below 3 gives; here it ends with `InvalidConfiguration(n)` before the operand is looked at. -/
def readSizeAndOperand (op : Bit) (text : List Char) : Host.Outcome (Nat × Instr) Fault Refusal :=
  let t := text.dropWhile (· == ' ')
  match decimalValue (t.takeWhile (· != ',')), t.dropWhile (· != ',') with
  | some n, ',' :: rest => withBlockSize n fun m => readOperand m op rest
  | _, _ => .refused .notAnOperationLine

/-- Reads the operation part of a line (R61): the size and the operation. "An operation whose operand string has the
wrong length or a character other than 0 and 1 is not an operation (it is refused when the line is read)". A size
below 3 ends with `InvalidConfiguration(n)`, the model's choice (log 24). -/
def parseOp (line : List Char) : Host.Outcome (Nat × Instr) Fault Refusal :=
  match line with
  | 'E' :: 'N' :: 'C' :: ' ' :: rest => readSizeAndOperand false rest
  | 'D' :: 'E' :: 'C' :: ' ' :: rest => readSizeAndOperand true rest
  | _ => .refused .notAnOperationLine

end Sys2Proof.Machine
end

