-- ==== Sys2Proof/Machine/Text.lean ====
section
/-! DEFINITION. The text adapters TXT2BITS and BITS2TXT of the environment (R108 to R111). -/

namespace Sys2Proof.Machine

/-- The 8 binary digits of a code point, the most significant digit first (R108, R109; PRESUMED, log 12). -/
def codeBits (u : Nat) : Bits := (List.range 8).map fun j => u.testBit (7 - j)

/-- TXT2BITS (R108): the digits of the code points in character order. Text with a code point above 255 is refused
(R109, D14). -/
def txt2bits (T : List Char) : Host.Outcome Bits Fault Refusal :=
  match T.find? (fun ch => decide (255 < ch.toNat)) with
  | some ch => .refused (.codePointAbove255 ch.toNat)
  | none => .next (T.flatMap fun ch => codeBits ch.toNat)

/-- The character whose code point a chunk of digits gives, the most significant digit first (R110). -/
def chunkChar (b : Bits) : Char := Char.ofNat (b.foldl (fun a x => 2 * a + x.toNat) 0)

/-- The whole 8-Bit chunks of a Bitstream: chunk `t` is Bits `8(t - 1) + 1 .. 8t` (R110). -/
def wholeChunks (B : Bits) : List Bits := (List.range (B.length / 8)).map fun t => (B.drop (8 * t)).take 8

/-- The Bits after the last whole chunk, fewer than 8 (R111). -/
def shortChunk (B : Bits) : Bits := B.drop (8 * (B.length / 8))

/-- TAIL_POLICY, the open parameter of BITS2TXT (R111, D14). -/
inductive TailPolicy where
  /-- `cut_to_original_length`, given the length `L` of the original Bitstream -/
  | cutToOriginalLength (L : Nat)
  /-- `drop_short_chunk` -/
  | dropShortChunk
  /-- one of the "others" an environment may take, told apart by a number; `L`, the length of the original Bitstream,
  says which Bits are pad zeros -/
  | other (id L : Nat)
deriving DecidableEq, Repr

/-- How many Bits come before the pad zeros of a decoded Bitstream whose original had `L` Bits: `L` when only zeros
follow, and all of them when a 1 follows, since then what follows is no padding (log 13). A Bitstream shorter
than `L` has no pad zeros and all its Bits count (log 25). -/
def bitsBeforePad (L : Nat) (B : Bits) : Nat := if (B.drop L).all (! ·) then min L B.length else B.length

/-- How many whole chunks are not made only of pad zeros: those that begin before the padding. -/
def textChunks (L : Nat) (B : Bits) : Nat := min (B.length / 8) (ceilDiv (bitsBeforePad L B) 8)

/-- The text of a short last chunk that a policy has not removed; a FREE VALUE (log 13). -/
def shortChunkText (b : Bits) : List Char := if b.isEmpty then [] else Config.shortChunkText b

/-- BITS2TXT (R110), with the remainder treated as the policy says (R111). DESIGN CHOICE (log 25): a
Bitstream shorter than the original length is not cut; the spec is silent there. Under a policy that the spec does not
describe, every whole chunk that is not made only of pad zeros reads as its character, and only the rest, the whole
chunks of pad zeros and the short chunk, is open; its text is a FREE VALUE (log 13). -/
def bits2txt (policy : TailPolicy) (B : Bits) : List Char :=
  match policy with
  | .cutToOriginalLength L =>
    (wholeChunks (B.take L)).map chunkChar ++ shortChunkText (shortChunk (B.take L))
  | .dropShortChunk => (wholeChunks B).map chunkChar
  | .other id L =>
    let lead := (wholeChunks B).take (textChunks L B)
    let openEnd := B.drop (8 * lead.length)
    lead.map chunkChar ++ (if openEnd.isEmpty then [] else Config.otherTailText id openEnd)

end Sys2Proof.Machine
end

