-- ==== Sys2Proof/Safety.lean ====
section
/-! DEFINITION. The words claims are stated in: valid code words, distances, the invariant of an instance. -/

namespace Sys2Proof.Machine

/-- A valid code word of size `n`: a block whose syndrome is 0 (R20, R86). -/
abbrev ValidCodeWord (n : Nat) (c : Bits) : Prop := c.length = n ∧ syndrome n c = 0

/-- Two sequences combined Bit by Bit with exclusive-or (R72 (e), R80). -/
def xorBits (a b : Bits) : Bits := List.zipWith Bool.xor a b

/-- The bitwise exclusive-or of a list of positions, `^{ i in F }` (R80). -/
def xorPositions (F : List Nat) : Nat := F.foldr (fun i a => i ^^^ a) 0

/-- The positions of a block that hold a 1, ascending. -/
def onePositions (n : Nat) (c : Bits) : List Nat := (positions n).filter (bitAt c)

/-- Every position of the list inverted, one after the other. -/
def flipAll (c : Bits) (F : List Nat) : Bits := F.foldl flipAt c

/-- The positions in which two blocks of size `n` differ, ascending. -/
def differences (n : Nat) (a b : Bits) : List Nat := (positions n).filter fun p => bitAt a p != bitAt b p

/-- Every sequence of `m` Bits, each once. -/
def allWords : Nat → List Bits
  | 0 => [[]]
  | m + 1 => (allWords m).map (false :: ·) ++ (allWords m).map (true :: ·)

/-- Every port of an instance carries as many Bits as it has wires, and the syndrome fits its wires (R54, R14). -/
def State.PortsFit (s : State) : Prop :=
  (∀ p : Port, (s.port p).length = portWidth s.n p) ∧ s.decSynO < 2 ^ syndromeWidth s.n

/-- What the outputs promise about each other whatever the operand: the code word on `enc_c_o` is valid (R86); the
corrected block is the code word of the data word exactly when the syndrome is in range (R91); `oor` implies `err`
(R85). -/
def State.OutputsAgree (s : State) : Prop :=
  ValidCodeWord s.n s.encCO ∧
  (s.decOorO = false ↔ ValidCodeWord s.n s.decCcO) ∧
  (s.decOorO = false → encBlock s.n s.decDO = s.decCcO) ∧
  (s.decOorO = true → s.decErrO = true)

/-- The invariant of an instance. That its outputs are functions of its present inputs and of `n` (R22) needs no
clause: they are computed, not stored. -/
def State.Inv (s : State) : Prop := ValidBlockSize s.n ∧ s.PortsFit ∧ s.OutputsAgree

/-- The ports of the unit that an operation uses: its operand and its results (R54, R55). -/
def unitPorts : Instr → List Port
  | .enc _ => [.encDI, .encCO]
  | .dec _ => [.decCI, .decDO, .decSynO, .decCcO, .decErrO, .decOorO]

/-- A test on the next state of an outcome; false for an error or a refusal. -/
def completesWith {α : Type} (o : Host.Outcome α Fault Refusal) (p : α → Bool) : Bool :=
  match o with
  | .next a => p a
  | .fault _ => false
  | .refused _ => false

end Sys2Proof.Machine
end

