-- ==== Sys2Proof/Certificates/Slice0/Obligations.lean ====
section
/-! DEFINITION. The statements for the provers, each a proposition about the model. The outputs of an instance
(`encCO`, `decDO`, `decSynO`, `decCcO`, `decErrO`, `decOorO`) are computed from its present inputs, so a next state that
differs in an input differs in the outputs of that unit too, and in nothing else. Positions and places are counted
from 1; `s.n` is the block size of the instance whose state is `s`; hypotheses are on the state and the operands
alone. A "log <n>" is notes/assumptions/<n>.md. -/

open Sys2Proof Sys2Proof.Machine

/-! ### Parameters and the position map -/

/-- R9: `r` is "the unique integer with `2^r <= n < 2^(r+1)`", the index of the most significant 1 of `n`. -/
def Obligations.ParityCountIsFloorOfLog2 : Prop :=
  ∀ n : Nat, 1 ≤ n →
    2 ^ parityCount n ≤ n ∧ n < 2 ^ (parityCount n + 1) ∧
    (∀ r : Nat, 2 ^ r ≤ n → n < 2 ^ (r + 1) → r = parityCount n) ∧
    n.testBit (parityCount n) = true ∧ ∀ j : Nat, parityCount n < j → n.testBit j = false

/-- 00_scope.md section 3: "A value of `n` is valid exactly when `n >= 3`"; the spec derives that this is the
condition `k >= 1` on positive integers, and that `k` grows by 0 or 1 as `n` grows by 1. -/
def Obligations.ValidSizesAreThoseWithADataBit : Prop :=
  (∀ n : Nat, 1 ≤ n → ((dataCount n : Int) = (n : Int) - parityCount n - 1 ∧
    (ValidBlockSize n ↔ (1 : Int) ≤ (n : Int) - parityCount n - 1))) ∧
  ∀ n : Nat, 1 ≤ n → dataCount n ≤ dataCount (n + 1) ∧ dataCount (n + 1) ≤ dataCount n + 1

/-- 00_scope.md section 3, on parity positions: the powers of two in `1..n`, in ascending order; the spec derives
that there are exactly `r + 1` of them. -/
def Obligations.ParityPositionsAreThePowersOfTwo : Prop :=
  ∀ n : Nat, ValidBlockSize n →
    (∀ p : Nat, p ∈ parityPositions n ↔ 1 ≤ p ∧ p ≤ n ∧ isPow2 p = true) ∧
    (∀ p : Nat, isPow2 p = true ↔ ∃ j : Nat, p = 2 ^ j) ∧
    (parityPositions n).Pairwise (· < ·) ∧ (parityPositions n).length = parityCount n + 1

/-- 00_scope.md section 3, on data positions: all remaining positions, ascending, the first being 3; the spec
derives that there are exactly `k` of them. -/
def Obligations.DataPositionsAreTheOthersInOrder : Prop :=
  ∀ n : Nat, ValidBlockSize n →
    (∀ p : Nat, p ∈ dataPositions n ↔ 1 ≤ p ∧ p ≤ n ∧ p ∉ parityPositions n) ∧
    (dataPositions n).Pairwise (· < ·) ∧ (dataPositions n).length = dataCount n ∧
    (dataPositions n).head? = some 3

/-- 30_encoding.md section 1, on operand assembly: place `j` goes to the `j`-th data position, which does not depend
on `n`; the spec derives both closed forms of `dpos` and its inverse `place`. -/
def Obligations.PlacesGoToTheirClosedFormPositions : Prop :=
  (∀ n : Nat, ValidBlockSize n → ∀ j : Nat, 1 ≤ j → j ≤ dataCount n →
    (dataPositions n)[j - 1]? = some (dpos j)) ∧
  ∀ j : Nat, 1 ≤ j →
    isPow2 (dpos j) = false ∧ place (dpos j) = j ∧
    (∀ p : Nat, 1 ≤ p → isPow2 p = false → place p = j → dpos j ≤ p) ∧
    ∃ m : Nat, dpos j = j + m ∧ j + m < 2 ^ m ∧ ∀ m' : Nat, j + m' < 2 ^ m' → m ≤ m'

/-- 30_encoding.md section 1, on coverage sets: `cover(2^j, n)` holds the positions whose binary digit `j` is 1; the
spec derives that it holds its own parity position and no other one, that a data position lies in at least two sets
and a parity position in exactly one, and that `cover(n, n) = { n }` when `n` is a power of two. -/
def Obligations.CoverageSetsReadOneBinaryDigit : Prop :=
  ∀ n : Nat, ValidBlockSize n →
    (∀ i j : Nat, i ∈ cover (2 ^ j) n ↔ 1 ≤ i ∧ i ≤ n ∧ i.testBit j = true) ∧
    (∀ P ∈ parityPositions n, ∀ P' ∈ parityPositions n, P' ∈ cover P n ↔ P' = P) ∧
    (∀ i ∈ dataPositions n, 2 ≤ ((parityPositions n).filter fun P => (cover P n).contains i).length) ∧
    (∀ i ∈ parityPositions n, ((parityPositions n).filter fun P => (cover P n).contains i).length = 1) ∧
    (isPow2 n = true → cover n n = [n])

/-! ### The operation ENC -/

/-- R63, R66, R68: for every data word of `k` Bits, ENC completes with the one code word of `n` Bits whose data
positions hold the data word in order and whose parity positions hold the exclusive-or of what they cover, computed
on the block that PLACE leaves, with 0 as placeholder. Nothing but the two ports of the unit ENC changes, and the code
word depends on `n` and the data word alone. -/
def Obligations.EncPlacesDataAndGeneratesParity : Prop :=
  ∀ (n : Nat) (d : Bits), ValidBlockSize n → d.length = dataCount n →
    ∃ c : Bits, c.length = n ∧
      (∀ j : Nat, 1 ≤ j → j ≤ dataCount n →
        bitAt (placeData n d) (dpos j) = bitAt d j ∧ bitAt c (dpos j) = bitAt d j) ∧
      (∀ P ∈ parityPositions n,
        bitAt (placeData n d) P = false ∧
        bitAt c P = xorOver (placeData n d) (cover P n) ∧
        bitAt c P = xorOver c ((cover P n).filter (· != P)) ∧
        xorOver c (cover P n) = false) ∧
      ∀ s : State, s.n = n → ∃ t : State, exec (.enc d) s = .next t ∧ t = { s with encDI := d } ∧ t.encCO = c ∧
        ∀ p : Port, p ≠ .encDI → p ≠ .encCO → t.port p = s.port p

/-- 40_encoder.md section 2, "Closed form": `c[dpos(j)] = d[j]` and `c[2^t]` is the exclusive-or of the `d[j]` with
`dpos(j) & 2^t != 0`, which the spec derives from its stage rules. -/
def Obligations.EncClosedForm : Prop :=
  ∀ (s : State) (d : Bits), ValidBlockSize s.n → d.length = dataCount s.n →
    ∃ t : State, exec (.enc d) s = .next t ∧
      (∀ j : Nat, 1 ≤ j → j ≤ dataCount s.n → bitAt t.encCO (dpos j) = bitAt d j) ∧
      ∀ e : Nat, e ≤ parityCount s.n →
        bitAt t.encCO (2 ^ e) =
          xorOver d ((List.range' 1 (dataCount s.n)).filter fun j => dpos j &&& 2 ^ e != 0)

/-- 40_encoder.md section 2: "The order of the parity computations does not matter", which the spec derives. -/
def Obligations.ParityOrderDoesNotMatter : Prop :=
  ∀ (n : Nat) (d : Bits) (order : List Nat), ValidBlockSize n → d.length = dataCount n →
    order.Perm (parityPositions n) → parGenIn n order (placeData n d) = encBlock n d

/-- 40_encoder.md section 2, "The placeholder is 0", which the spec derives; 91_not_in_source.md N13: with
placeholder 1 "the syndrome of a fresh block would be all ones". -/
def Obligations.PlaceholderDecidesTheFreshSyndrome : Prop :=
  ∀ (n : Nat) (d : Bits) (q : Bit), ValidBlockSize n → d.length = dataCount n →
    syndrome n (parGen n (placeWith q (positions n) d)) =
      if q then 2 ^ syndromeWidth n - 1 else 0

/-- 40_encoder.md section 3, corner cases (a), (e), (f), derived by the spec: ENC maps zeros to zeros, is linear over
exclusive-or, and is injective. -/
def Obligations.EncIsLinearAndInjective : Prop :=
  ∀ n : Nat, ValidBlockSize n →
    encBlock n (zeros (dataCount n)) = zeros n ∧
    ∀ d e : Bits, d.length = dataCount n → e.length = dataCount n →
      encBlock n (xorBits d e) = xorBits (encBlock n d) (encBlock n e) ∧
      (encBlock n d = encBlock n e → d = e)

/-- 40_encoder.md section 3, corner case (b), and 70_reset_and_hazards.md section 3, "Sizes that waste a Bit": when
`n` is a power of two it carries as many data Bits as `n - 1`, and a code word is one of size `n - 1` followed by 0.
Derived by the spec. -/
def Obligations.PowerOfTwoSizeWastesItsLastBit : Prop :=
  ∀ n : Nat, 4 ≤ n → isPow2 n = true →
    dataCount n = dataCount (n - 1) ∧
    ∀ d : Bits, d.length = dataCount n → encBlock n d = encBlock (n - 1) d ++ [false]

/-- 40_encoder.md section 3, corner case (c), and 41_decoder.md section 4, corner case (e), derived by the spec: size
3 is threefold repetition and its decoding a majority vote. -/
def Obligations.SizeThreeIsRepetitionAndMajority : Prop :=
  ∀ s : State, s.n = 3 →
    (∀ b : Bit, ∃ t : State, exec (.enc [b]) s = .next t ∧ t = { s with encDI := [b] } ∧ t.encCO = [b, b, b]) ∧
    ∀ x y z : Bit, ∃ t : State, exec (.dec [x, y, z]) s = .next t ∧
      t.decDO = [(x && y) || (x && z) || (y && z)]

/-! ### Valid code words -/

/-- 41_decoder.md section 3, "Parity consistency": "for any freshly encoded block (no corruption), the Syndrome
computed over it is exactly 0"; the spec derives that the valid code words are exactly the `2^k` outputs of ENC. -/
def Obligations.ValidCodeWordsAreTheOutputsOfEnc : Prop :=
  ∀ n : Nat, ValidBlockSize n →
    (∀ d : Bits, d.length = dataCount n → syndrome n (encBlock n d) = 0) ∧
    (∀ c : Bits, ValidCodeWord n c ↔ ∃ d : Bits, d.length = dataCount n ∧ c = encBlock n d) ∧
    ((allWords n).filter fun c => syndrome n c == 0).length = 2 ^ dataCount n

/-- 40_encoder.md section 3: "Two different valid code words of the same `n` differ in at least 3 positions",
which the spec derives. -/
def Obligations.ValidCodeWordsDifferInThreePositions : Prop :=
  ∀ (n : Nat) (v w : Bits), ValidBlockSize n → ValidCodeWord n v → ValidCodeWord n w → v ≠ w →
    3 ≤ (differences n v w).length

/-- 30_encoding.md section 3, on legal operands: "the syndrome map sends exactly `2^k` words to each of the
`2^(r+1)` syndrome values", which the spec derives. -/
def Obligations.EverySyndromeIsTakenEquallyOften : Prop :=
  ∀ n v : Nat, ValidBlockSize n → v < 2 ^ syndromeWidth n →
    ((allWords n).filter fun c => syndrome n c == v).length = 2 ^ dataCount n

/-- 30_encoding.md section 3, on legal operands, derived by the spec: at a classical size every word is at most one
flip away from exactly one valid code word; at any size a word with a syndrome above `n` is two or more flips away
from every valid code word. -/
def Obligations.ClassicalSizesArePerfect : Prop :=
  ∀ (n : Nat) (c : Bits), ValidBlockSize n → c.length = n →
    (isClassicalSize n = true → ∃ w : Bits, ValidCodeWord n w ∧ (differences n w c).length ≤ 1 ∧
      ∀ w' : Bits, ValidCodeWord n w' → (differences n w' c).length ≤ 1 → w' = w) ∧
    (n < syndrome n c → ∀ w : Bits, ValidCodeWord n w → 2 ≤ (differences n w c).length)

/-- 30_encoding.md section 3, "Syndrome values that name no position": "They exist exactly when `n` is not of the
form `2^m - 1`"; the spec derives it. Here each of them is taken by some block. -/
def Obligations.SyndromesAboveNExistExactlyAtNonClassicalSizes : Prop :=
  ∀ n : Nat, ValidBlockSize n →
    ((∃ c : Bits, c.length = n ∧ n < syndrome n c) ↔ isClassicalSize n = false) ∧
    ∀ v : Nat, n < v → v < 2 ^ syndromeWidth n → ∃ c : Bits, c.length = n ∧ syndrome n c = v

/-! ### The syndrome -/

/-- 41_decoder.md section 2, "The syndrome as an exclusive-or of positions", with its consequences (a), (b) and (c);
the spec derives them. -/
def Obligations.SyndromeIsTheXorOfOnePositions : Prop :=
  ∀ (n : Nat) (c : Bits), ValidBlockSize n → c.length = n →
    syndrome n c = xorPositions (onePositions n c) ∧
    (∀ e : Bits, e.length = n → syndrome n (xorBits c e) = syndrome n c ^^^ syndrome n e) ∧
    (∀ i : Nat, 1 ≤ i → i ≤ n → syndrome n (flipAt c i) = syndrome n c ^^^ i) ∧
    ∀ F : List Nat, (∀ i ∈ F, 1 ≤ i ∧ i ≤ n) → syndrome n (flipAll c F) = syndrome n c ^^^ xorPositions F

/-- 41_decoder.md section 2, "The upper bound of the loop does not matter": checks of powers of two above `n` add
nothing; the spec derives it. -/
def Obligations.SyndromeLoopBoundDoesNotMatter : Prop :=
  ∀ (n m : Nat) (c : Bits), ValidBlockSize n → c.length = n → syndromeWidth n ≤ m →
    syndromeUpTo m n c = syndrome n c

/-- 41_decoder.md section 4, corner case (b), derived by the spec: the syndrome of the all-one block. -/
def Obligations.AllOneBlockSyndrome : Prop :=
  ∀ n : Nat, ValidBlockSize n →
    (n % 4 = 0 → syndrome n (List.replicate n true) = n) ∧
    (n % 4 = 1 → syndrome n (List.replicate n true) = 1) ∧
    (n % 4 = 2 → syndrome n (List.replicate n true) = n + 1) ∧
    (n % 4 = 3 → syndrome n (List.replicate n true) = 0)

/-! ### The operation DEC -/

/-- 41_decoder.md sections 1 and 2, rule for rule: for every block of `n` Bits DEC completes with the five results
the stage rules give, which depend on `n` and the block alone; nothing but the six ports of the unit DEC changes. The
clause for a syndrome above `n` is the spec's decision D7 (log 9), and the two status outputs are its decision D8. -/
def Obligations.DecGivesTheFiveResults : Prop :=
  ∀ (n : Nat) (c : Bits), ValidBlockSize n → c.length = n →
    ∃ (d : Bits) (syn : Nat) (cc : Bits) (err oor : Bit),
      d.length = dataCount n ∧ syn < 2 ^ syndromeWidth n ∧ cc.length = n ∧
      (∀ j : Nat, j ≤ parityCount n → syn.testBit j = xorOver c (cover (2 ^ j) n)) ∧
      (1 ≤ syn → syn ≤ n → bitAt cc syn = !bitAt c syn) ∧
      (∀ p : Nat, 1 ≤ p → p ≤ n → p ≠ syn → bitAt cc p = bitAt c p) ∧
      (syn = 0 → cc = c) ∧ (n < syn → cc = c) ∧
      (differences n c cc).length ≤ 1 ∧
      (∀ j : Nat, 1 ≤ j → j ≤ dataCount n → bitAt d j = bitAt cc (dpos j)) ∧
      (err = true ↔ syn ≠ 0) ∧ (oor = true ↔ n < syn) ∧
      ∀ s : State, s.n = n → ∃ t : State, exec (.dec c) s = .next t ∧ t = { s with decCI := c } ∧
        t.decDO = d ∧ t.decSynO = syn ∧ t.decCcO = cc ∧ t.decErrO = err ∧ t.decOorO = oor ∧
        t.port .encDI = s.port .encDI ∧ t.port .encCO = s.port .encCO

/-- 41_decoder.md section 2, "CORR, syndrome above `n`", which is the spec's decision D7 (log 9): with a syndrome above
`n`, DEC completes, changes no Bit, extracts the data from the uncorrected block and sets both status outputs; the
case cannot occur for a valid code word with at most one flipped Bit, nor at all when `n = 2^(r+1) - 1`. -/
def Obligations.SyndromeAboveNInvertsNothing : Prop :=
  (∀ (s : State) (c : Bits), ValidBlockSize s.n → c.length = s.n → s.n < syndrome s.n c →
    ∃ t : State, exec (.dec c) s = .next t ∧ t = { s with decCI := c } ∧
      t.decDO = (dataPositions s.n).map (bitAt c) ∧ t.decSynO = syndrome s.n c ∧ t.decCcO = c ∧
      t.decErrO = true ∧ t.decOorO = true) ∧
  (∀ (n : Nat) (w : Bits), ValidBlockSize n → ValidCodeWord n w →
    ¬ n < syndrome n w ∧ ∀ i : Nat, 1 ≤ i → i ≤ n → ¬ n < syndrome n (flipAt w i)) ∧
  ∀ (n : Nat) (c : Bits), ValidBlockSize n → c.length = n → n = 2 ^ (parityCount n + 1) - 1 → ¬ n < syndrome n c

/-- R52: "`dec_err_o` is 1 exactly when the syndrome is not 0. `dec_oor_o` is 1 exactly when the syndrome is greater
than `n`." With it 41_decoder.md section 2 on the status outputs: `oor` implies `err`; `err` without `oor` means that
exactly the Bit at the syndrome was inverted; no `err` means that none was. -/
def Obligations.StatusOutputsReportTheSyndrome : Prop :=
  ∀ (s : State) (c : Bits), ValidBlockSize s.n → c.length = s.n →
    ∃ t : State, exec (.dec c) s = .next t ∧
      (t.decErrO = true ↔ t.decSynO ≠ 0) ∧ (t.decOorO = true ↔ s.n < t.decSynO) ∧
      (t.decOorO = true → t.decErrO = true) ∧
      (t.decErrO = true → t.decOorO = false → differences s.n c t.decCcO = [t.decSynO]) ∧
      (t.decErrO = false → t.decCcO = c)

/-- R87: "for all positions `i` in 1..n, flipping only bit `i` of a valid EncodedBlock produces Syndrome exactly
`i`", parity positions and position `n` included. -/
def Obligations.SyndromeNamesTheFlippedPosition : Prop :=
  ∀ (s : State) (w : Bits) (i : Nat), ValidBlockSize s.n → ValidCodeWord s.n w → 1 ≤ i → i ≤ s.n →
    ∃ t : State, exec (.dec (flipAt w i)) s = .next t ∧ t.decSynO = i

/-- R88: a single flip of a valid code word at any position is repaired; the data word is that of the unflipped code
word, the syndrome names the position, `err` is 1 and `oor` is 0. -/
def Obligations.AnySingleFlipIsCorrected : Prop :=
  ∀ (s : State) (w : Bits) (i : Nat), ValidBlockSize s.n → ValidCodeWord s.n w → 1 ≤ i → i ≤ s.n →
    ∃ t : State, exec (.dec (flipAt w i)) s = .next t ∧ t = { s with decCI := flipAt w i } ∧
      t.decDO = (decBlock s.n w).data ∧ t.decSynO = i ∧ t.decCcO = w ∧ t.decErrO = true ∧ t.decOorO = false

/-- R89: decoding what ENC put on its output gives the data word back, with syndrome 0 and no status. -/
def Obligations.BlockRoundTrip : Prop :=
  ∀ (s : State) (d : Bits), ValidBlockSize s.n → d.length = dataCount s.n →
    ∃ t u : State, exec (.enc d) s = .next t ∧ exec (.dec t.encCO) t = .next u ∧
      u = { s with encDI := d, decCI := t.encCO } ∧
      u.decDO = d ∧ u.decSynO = 0 ∧ u.decCcO = t.encCO ∧ u.decErrO = false ∧ u.decOorO = false

/-- 41_decoder.md section 3, "Two or more flipped Bits" (a), derived by the spec: with two flips the syndrome is `i ^
j`, which is not 0, `i` or `j`; in range, DEC moves to a valid code word that differs in `i`, `j` and the syndrome,
and the data word is wrong; out of range (the spec's decision D7, log 9), nothing is inverted and the data word is
wrong unless both flips are at parity positions. No error is raised. -/
def Obligations.TwoFlipsAreMiscorrectedOrOutOfRange : Prop :=
  ∀ (s : State) (w : Bits) (i j : Nat), ValidBlockSize s.n → ValidCodeWord s.n w →
    1 ≤ i → i ≤ s.n → 1 ≤ j → j ≤ s.n → i ≠ j →
    ∃ t : State, exec (.dec (flipAt (flipAt w i) j)) s = .next t ∧
      t.decSynO = i ^^^ j ∧ t.decSynO ≠ 0 ∧ t.decSynO ≠ i ∧ t.decSynO ≠ j ∧ t.decErrO = true ∧
      (t.decSynO ≤ s.n →
        t.decOorO = false ∧ ValidCodeWord s.n t.decCcO ∧
        (∀ p : Nat, 1 ≤ p → p ≤ s.n → (bitAt t.decCcO p ≠ bitAt w p ↔ p = i ∨ p = j ∨ p = t.decSynO)) ∧
        t.decDO ≠ (decBlock s.n w).data) ∧
      (s.n < t.decSynO →
        t.decOorO = true ∧ t.decCcO = flipAt (flipAt w i) j ∧
        (t.decDO = (decBlock s.n w).data ↔ isPow2 i = true ∧ isPow2 j = true))

/-- 41_decoder.md section 3, "Two or more flipped Bits" (b), derived by the spec: flips at positions 1, 2 and 3 of any
valid code word pass unnoticed, with syndrome 0, no status and wrong data. -/
def Obligations.ThreeFlipsCanPassUnnoticed : Prop :=
  ∀ (s : State) (w : Bits), ValidBlockSize s.n → ValidCodeWord s.n w →
    ∃ t : State, exec (.dec (flipAll w [1, 2, 3])) s = .next t ∧
      t.decSynO = 0 ∧ t.decErrO = false ∧ t.decOorO = false ∧ t.decCcO = flipAll w [1, 2, 3] ∧
      t.decDO ≠ (decBlock s.n w).data

/-- 41_decoder.md section 3, "Corrected block", and section 4, corner case (g), derived by the spec: in range, the
corrected block is the code word of the returned data, and decoding it again gives syndrome 0 and the same data; out
of range (the spec's decision D7, log 9), it is the received block and no valid code word. -/
def Obligations.CorrectedBlockIsTheCodeWordOfItsData : Prop :=
  ∀ (s : State) (c : Bits), ValidBlockSize s.n → c.length = s.n →
    ∃ t : State, exec (.dec c) s = .next t ∧
      (t.decSynO ≤ s.n →
        syndrome s.n t.decCcO = 0 ∧ encBlock s.n t.decDO = t.decCcO ∧
        ∃ u : State, exec (.dec t.decCcO) t = .next u ∧ u.decSynO = 0 ∧ u.decDO = t.decDO) ∧
      (s.n < t.decSynO → t.decCcO = c ∧ syndrome s.n t.decCcO = t.decSynO ∧ ¬ ValidCodeWord s.n t.decCcO)

/-- 41_decoder.md section 4, corner case (c), derived by the spec: a flip of a parity position of a valid code word
is reported and repaired, and changes no data Bit even without the repair. -/
def Obligations.ParityFlipChangesNoData : Prop :=
  ∀ (s : State) (w : Bits) (P : Nat), ValidBlockSize s.n → ValidCodeWord s.n w → P ∈ parityPositions s.n →
    extract s.n (flipAt w P) = extract s.n w ∧
    ∃ t : State, exec (.dec (flipAt w P)) s = .next t ∧
      t.decSynO = P ∧ t.decErrO = true ∧ t.decOorO = false ∧ t.decCcO = w ∧ t.decDO = extract s.n w

/-! ### Errors and refusals of the block -/

/-- R117: `InvalidConfiguration(n)` exactly for `n < 3`, raised when an instance is built, and by ENCSTREAM and
DECSTREAM before they touch their input, whatever it is. -/
def Obligations.InvalidConfigurationExactlyBelowThree : Prop :=
  (∀ n : Int, n < 3 →
    buildInstance n = .fault (.invalidConfiguration n) ∧
    (∀ B : Bits, encStream n B = .fault (.invalidConfiguration n)) ∧
    ∀ Q : List (List Char), decStream n Q = .fault (.invalidConfiguration n)) ∧
  ∀ n : Nat, ValidBlockSize n →
    (∃ s : State, buildInstance n = .next s ∧ s.n = n) ∧
    (∀ B : Bits, ∃ Q : List Bits, encStream n B = .next Q) ∧
    ∀ (Q : List (List Char)) (m : Int), decStream n Q ≠ .fault (.invalidConfiguration m)

/-- The model's choice (log 7), after 60_exceptions.md section 1 ("A model makes the functions total by taking `n`
together with a proof of `n >= 3`, or by returning this error"): a state whose `n` is below 3 is no instance, and
every operation and every step in it ends with `InvalidConfiguration(n)`. -/
def Obligations.NoOperationRunsBelowThree : Prop :=
  ∀ s : State, s.n < 3 →
    (∀ i : Instr, exec i s = .fault (.invalidConfiguration s.n)) ∧ step s = .fault (.invalidConfiguration s.n)

/-- The model's choice (log 6), after 30_encoding.md section 4 ("An operation whose operand string has the wrong
length ... is not an operation"): an operand that does not fit its port is refused, at the port and as a word. -/
def Obligations.MisfittingOperandIsRefused : Prop :=
  ∀ (s : State) (i : Instr), ValidBlockSize s.n → i.operand.length ≠ portWidth s.n i.inputPort →
    exec i s = .refused (.operandNotPortWidth i.inputPort i.operand.length (portWidth s.n i.inputPort)) ∧
    ∀ rest : List Bits, step { s with issue := encode i :: rest } =
      .refused (.notAnOperationWord (.operandLength i.operand.length (portWidth s.n i.inputPort)))

/-! ### Steps, runs, isolation -/

/-- The model's choice of reset (log 1, log 3, log 4): it is the instance that building size 8 gives, and it meets
the invariant. -/
def Obligations.ResetIsABuiltInstanceInInv : Prop :=
  buildInstance 8 = .next State.reset ∧ State.reset.Inv

/-- 70_reset_and_hazards.md section 2 and 10_state.md section 1: an instance built with any valid size meets the
invariant. Its input values are the model's choice (log 3). -/
def Obligations.EveryBuiltInstanceMeetsInv : Prop :=
  ∀ n : Nat, ValidBlockSize n → ∃ s : State, buildInstance n = .next s ∧ s.n = n ∧ s.Inv

/-- 30_encoding.md section 2 and 41_decoder.md section 3: every step keeps the invariant. After it the block size is
valid, every port carries as many Bits as it has wires, the code word on `enc_c_o` is valid, and the corrected block
is a valid code word, that of the decoded data, exactly when the syndrome is in range (above `n` it is the received
block, by the spec's decision D7, log 9). -/
def Obligations.StepKeepsInv : Prop :=
  ∀ s t : State, s.Inv → step s = .next t → t.Inv

/-- What a step does in every instance. When the word issued next reads as an operation, the step is that operation
with the word taken off the list; this holds of the word of every well-formed operation. A word that reads as none is
refused (log 6), and when the environment issues nothing a step changes nothing (log 4); both are the model's
choice. -/
def Obligations.StepRunsTheIssuedOperation : Prop :=
  (∀ (s : State) (w : Bits) (rest : List Bits), ValidBlockSize s.n → s.issue = w :: rest →
    (∀ i : Instr, decode s.n w = .ok i → step s = exec i { s with issue := rest }) ∧
    (∀ i : Instr, i.wf s.n = true → w = encode i → step s = exec i { s with issue := rest }) ∧
    ∀ e : DecodeError, decode s.n w = .error e → step s = .refused (.notAnOperationWord e)) ∧
  ∀ s : State, ValidBlockSize s.n → s.issue = [] → step s = .next s

/-- R147: "`n` must not change during a run"; "With a static parameter it cannot change". -/
def Obligations.BlockSizeNeverChanges : Prop :=
  ∀ (k : Nat) (s t : State), Host.Core.run Sys2Proof.core k s = .next t → t.n = s.n

/-- 20_memory.md section 5 (a): "The result of an operation depends only on its own operand and `n`; no operation
observes another." After any series of earlier operations, the ports of the unit carry what one evaluation on any
instance of the same size gives. -/
def Obligations.ResultsDoNotDependOnEarlierOperations : Prop :=
  ∀ (s s' : State) (earlier : List Instr) (i : Instr) (rest : List Bits),
    ValidBlockSize s.n → s'.n = s.n → (∀ e ∈ earlier, e.wf s.n = true) → i.wf s.n = true →
    s.issue = (earlier ++ [i]).map encode ++ rest →
    ∃ t t' : State, Host.Core.run Sys2Proof.core (earlier.length + 1) s = .next t ∧ exec i s' = .next t' ∧
      t.issue = rest ∧ ∀ p ∈ unitPorts i, t.port p = t'.port p

/-- 20_memory.md sections 4 and 5: the two units do not disturb each other, so the order of an ENC and a DEC does not
matter, and issuing the same operand twice gives the same result. -/
def Obligations.OperationsCommuteAndRepeat : Prop :=
  ∀ (s : State) (d c : Bits), ValidBlockSize s.n → d.length = dataCount s.n → c.length = s.n →
    (∃ t u v : State, exec (.enc d) s = .next t ∧ exec (.dec c) t = .next v ∧
      exec (.dec c) s = .next u ∧ exec (.enc d) u = .next v) ∧
    ∀ i : Instr, i.wf s.n = true → ∃ t : State, exec i s = .next t ∧ exec i t = .next t

/-! ### Operation words and wires -/

/-- Decoding and encoding agree for every operation of an instance, with every operand its port admits, as Bits and
as a number; a word that decodes is the word of the operation it decodes to. The layout of the word is the model's
(log 5). -/
def Obligations.DecodeEncodeAgree : Prop :=
  ∀ n : Nat, ValidBlockSize n →
    (∀ i : Instr, i.wf n = true →
      decode n (encode i) = .ok i ∧ decodeWord n (encodeWord i) = .ok i ∧
      encodeWord i < 2 ^ wordLength n i.tag) ∧
    (∀ (w : Bits) (i : Instr), decode n w = .ok i → i.wf n = true ∧ encode i = w) ∧
    ∀ i i' : Instr, i.wf n = true → i'.wf n = true → encodeWord i = encodeWord i' → i = i'

/-- R55 gives the tags: "`op = 0` is ENC, `op = 1` is DEC". The words below are the tag in bit 0 and the wire vectors
of 95_test_vectors.md V15 above it (log 5). The last two are words of the operation table, whose missing operand bits
read as 0 (log 8), for the instance of size 8 that the model chose for reset (log 1). -/
def Obligations.WrittenOutWordsDecode : Prop :=
  decodeWord 8 0b10000 = .ok (.enc [false, false, false, true]) ∧
  decodeWord 8 0b00010 = .ok (.enc [true, false, false, false]) ∧
  decodeWord 8 0b011010111 = .ok (.dec [true, true, false, true, false, true, true, false]) ∧
  decodeTableWord 8 0 = some (.enc (zeros 4)) ∧ decodeTableWord 8 1 = some (.dec (zeros 8))

/-- Every word of the operation table reads as a well-formed operation, the one its tag selects, and when it is
issued next a step is that operation on the state as it was (log 8). -/
def Obligations.TableWordRunsNext : Prop :=
  ∀ (s : State) (nbits w : Nat), ValidBlockSize s.n →
    ∃ i : Instr, i.wf s.n = true ∧ i.tag = (w % 2 ^ nbits).testBit 0 ∧
      decode s.n (tableWordBits s.n nbits w) = .ok i ∧ step (s.withFetchWord nbits w) = exec i s

/-- R34 (the spec's decision D5): position `p` travels on wire `p - 1`, place `j` on wire `j - 1`, syndrome bit `j` on
wire `j`; read as a number, the syndrome port shows the syndrome. -/
def Obligations.WiresCarryPositionsInOrder : Prop :=
  ∀ s : State, s.Inv →
    (∀ p : Nat, 1 ≤ p → p ≤ s.n →
      (s.port .encCO)[p - 1]? = some (bitAt s.encCO p) ∧ (s.port .decCI)[p - 1]? = some (bitAt s.decCI p) ∧
      (s.port .decCcO)[p - 1]? = some (bitAt s.decCcO p)) ∧
    (∀ j : Nat, 1 ≤ j → j ≤ dataCount s.n →
      (s.port .encDI)[j - 1]? = some (bitAt s.encDI j) ∧ (s.port .decDO)[j - 1]? = some (bitAt s.decDO j)) ∧
    (∀ j : Nat, j < syndromeWidth s.n → (s.port .decSynO)[j]? = some (s.decSynO.testBit j)) ∧
    s.portValue .decSynO = s.decSynO

/-- 70_reset_and_hazards.md section 4, on structural sizes, derived by the spec (log 19): XOR trees, the select decoder
and the status gates compute ENC and DEC; the tree of `P` has the stated number of inputs in ENC. -/
def Obligations.NetlistComputesTheBlock : Prop :=
  ∀ n : Nat, ValidBlockSize n →
    (∀ d : Bits, d.length = dataCount n → encNet n d = encBlock n d) ∧
    (∀ c : Bits, c.length = n → decNet n c = decBlock n c) ∧
    ∀ P ∈ parityPositions n, (encTreePlaces n P).length = encTreeInputs n P

/-- 30_encoding.md section 3 and 93_implementation_defined.md U12: on two-valued inputs a four-valued simulator shows
the instance; on any levels every output port has its width, and the levels it then carries are free values
(log 15). -/
def Obligations.TwoValuedLevelsShowTheBlock : Prop :=
  ∀ n : Nat, ValidBlockSize n →
    (∀ (d c : Bits) (p : Port), d.length = dataCount n → c.length = n →
      portLevels n (d.map bitLevel) (c.map bitLevel) p = ((instanceState n [] d c).port p).map bitLevel) ∧
    ∀ (dIn cIn : List Level) (p : Port), dIn.length = dataCount n → cIn.length = n →
      (portLevels n dIn cIn p).length = portWidth n p

/-! ### Lines and notation -/

/-- 42_stream_ops.md section 4, on PRINTBLK and PARSEBLK: PRINTBLK gives exactly `n` characters, character `p` being
position `p`; PARSEBLK accepts exactly the lines of `n` characters 0 and 1, character `p` giving position `p`, and
refuses any other line with `InvalidBlockFormat`. The index in the error is the model's choice (log 11), and so is
that lines are judged for any `n` (log 23). -/
def Obligations.LinesCarryBlocksExactly : Prop :=
  (∀ (c : Bits) (index : Nat),
    (printBlk c).length = c.length ∧
    (∀ p : Nat, 1 ≤ p → p ≤ c.length → (printBlk c)[p - 1]? = some (if bitAt c p then '1' else '0')) ∧
    parseBlk c.length index (printBlk c) = .next c) ∧
  ∀ (n index : Nat) (line : List Char),
    ((line.length = n ∧ ∀ ch ∈ line, ch = '0' ∨ ch = '1') →
      ∃ c : Bits, parseBlk n index line = .next c ∧ c.length = n ∧ printBlk c = line) ∧
    (¬ (line.length = n ∧ ∀ ch ∈ line, ch = '0' ∨ ch = '1') →
      parseBlk n index line = .fault (.invalidBlockFormat index))

/-- 30_encoding.md section 4: the notation of an operation reads back as that operation of that size. Blanks and the
treatment of other lines are the model's (log 18). -/
def Obligations.NotationReadsBack : Prop :=
  ∀ (n : Nat) (i : Instr), ValidBlockSize n → i.wf n = true → parseOp (printOp n i) = .next (n, i)

/-! ### Stream operations -/

/-- 42_stream_ops.md section 2: ENCSTREAM cuts the Bitstream into consecutive groups of `k` Bits, right-pads the last
with fewer than `k` zero Bits, and gives one block per group, `ceil(L / k)` in all, in order. The formula for the
number of pad Bits is the spec's own derivation. -/
def Obligations.EncStreamEncodesConsecutiveGroups : Prop :=
  ∀ (n : Nat) (B : Bits), ValidBlockSize n →
    ∃ groups : List Bits, encStream n B = .next (groups.map (encBlock n)) ∧
      (∀ grp ∈ groups, grp.length = dataCount n) ∧
      groups.flatten = B ++ zeros (padCount n B.length) ∧ padCount n B.length < dataCount n ∧
      B.length ≤ groups.length * dataCount n ∧
      (∀ G : Nat, B.length ≤ G * dataCount n → groups.length ≤ G) ∧
      (groups.map (encBlock n)).flatten.length = groups.length * n

/-- R102 (the spec's decision D12): the empty Bitstream gives no block, ENCSTREAM raises no error under a valid `n`
and `InvalidConfiguration` otherwise. With it 42_stream_ops.md section 3: no block gives the empty Bitstream. -/
def Obligations.EmptyStreamsAreEmpty : Prop :=
  (∀ n : Nat, ValidBlockSize n →
    encStream n [] = .next [] ∧ decStream n [] = .next [] ∧ ∀ B : Bits, ∃ Q : List Bits, encStream n B = .next Q) ∧
  ∀ (n : Int) (B : Bits), n < 3 → encStream n B = .fault (.invalidConfiguration n)

/-- R103, R104 (the spec's decisions D10 and D11): DECSTREAM checks every candidate before it decodes one; a
malformed candidate ends the whole run with `InvalidBlockFormat` and the lowest such index; otherwise the decoded
groups come out concatenated in block order. -/
def Obligations.DecStreamChecksAllThenDecodes : Prop :=
  ∀ (n : Nat) (Q : List (List Char)), ValidBlockSize n →
    (∀ g : Nat, g < Q.length →
      (∀ line : List Char, Q[g]? = some line → ¬ (line.length = n ∧ ∀ ch ∈ line, ch = '0' ∨ ch = '1')) →
      (∀ (g' : Nat) (line : List Char), g' < g → Q[g']? = some line → line.length = n ∧ ∀ ch ∈ line, ch = '0' ∨ ch = '1') →
      decStream n Q = .fault (.invalidBlockFormat (g + 1))) ∧
    ((∀ line ∈ Q, line.length = n ∧ ∀ ch ∈ line, ch = '0' ∨ ch = '1') →
      ∃ out : Bits, decStream n Q = .next out ∧ out.length = Q.length * dataCount n ∧
        out = (Q.map fun line => (decBlock n (lineBits line)).data).flatten)

/-- 42_stream_ops.md section 3, "Stream round trip", derived by the spec: what ENCSTREAM gives, handed over as lines
(log 10), decodes to the Bitstream followed by the pad zeros, fewer than `k`; cut to the kept length it is the
Bitstream (70_reset_and_hazards.md section 2). -/
def Obligations.StreamRoundTrip : Prop :=
  ∀ (n : Nat) (B : Bits), ValidBlockSize n →
    straightLine n B none = .next (B ++ zeros (padCount n B.length)) ∧ padCount n B.length < dataCount n ∧
    cutToLength B.length (B ++ zeros (padCount n B.length)) = B

/-- 42_stream_ops.md section 5, "End-to-end properties with the injector", derived by the spec: with one flip per
block, at any positions, the decoded Bitstream is the same and block `g` reports syndrome `i_g`. -/
def Obligations.StreamSurvivesOneFlipPerBlock : Prop :=
  ∀ (n : Nat) (B : Bits) (flips : List Nat), ValidBlockSize n →
    flips.length = groupCount n B.length → (∀ i ∈ flips, 1 ≤ i ∧ i ≤ n) →
    straightLine n B (some flips) = .next (B ++ zeros (padCount n B.length)) ∧
    ∃ (Q Q' : List Bits) (rs : List DecResult), encStream n B = .next Q ∧ inject Q flips = .next Q' ∧
      decRun n (Q'.map printBlk) = .next rs ∧ rs.map DecResult.syn = flips ∧
      ∀ r ∈ rs, r.err = true ∧ r.oor = false

/-- 42_stream_ops.md section 3 and 20_memory.md section 5 (c): blocks are handled without reference to any other, so
streams can be split at group and block boundaries. -/
def Obligations.StreamsSplitAtBlockBoundaries : Prop :=
  ∀ n : Nat, ValidBlockSize n →
    (∀ (B B' : Bits) (Q Q' : List Bits), dataCount n ∣ B.length → encStream n B = .next Q →
      encStream n B' = .next Q' → encStream n (B ++ B') = .next (Q ++ Q')) ∧
    ∀ (Q Q' : List (List Char)) (out out' : Bits), decStream n Q = .next out → decStream n Q' = .next out' →
      decStream n (Q ++ Q') = .next (out ++ out')

/-- 41_decoder.md section 4, on a different `n` on the two sides: blocks of another length are refused as format
errors, at a DEC instance the operand does not fit, and a flat sequence cut into whole pieces of the wrong size is
decoded without any error. The refusal by name at the instance (log 6) and the way a flat sequence is cut (log 22)
are the model's choice. -/
def Obligations.MismatchedSizeIsCaughtOnlyByLength : Prop :=
  ∀ (n n' : Nat), ValidBlockSize n → ValidBlockSize n' → n ≠ n' →
    (∀ Q : List Bits, Q ≠ [] → (∀ c ∈ Q, c.length = n) →
      decStream n' (Q.map printBlk) = .fault (.invalidBlockFormat 1)) ∧
    (∀ (s : State) (c : Bits), s.n = n' → c.length = n →
      exec (.dec c) s = .refused (.operandNotPortWidth .decCI n n')) ∧
    ∀ flat : Bits, n' ∣ flat.length → ∃ out : Bits, decStream n' ((cutFlat n' flat).map printBlk) = .next out

/-- 42_stream_ops.md, opening, and 30_encoding.md section 4: each stream operation expands to block operations. With
the operations of a stream issued one after the other, step `g` leaves block `g` of ENCSTREAM on `enc_c_o`, and
group `g` of DECSTREAM on `dec_d_o`. The list of words to issue (log 4), their layout (log 5) and candidate blocks as
lines (log 10) are the model's. -/
def Obligations.StreamOperationsExpandToSteps : Prop :=
  ∀ s : State, ValidBlockSize s.n →
    (∀ (B : Bits) (Q : List Bits), encStream s.n B = .next Q →
      s.issue = (dataGroups s.n B).map (fun grp => encode (.enc grp)) →
      ∀ g : Nat, g < Q.length → ∃ t : State, Host.Core.run Sys2Proof.core (g + 1) s = .next t ∧ Q[g]? = some t.encCO) ∧
    ∀ (Q : List (List Char)) (out : Bits), decStream s.n Q = .next out →
      s.issue = Q.map (fun line => encode (.dec (lineBits line))) →
      ∀ g : Nat, g < Q.length → ∃ t : State, Host.Core.run Sys2Proof.core (g + 1) s = .next t ∧
        t.decDO = subseq out (g * dataCount s.n + 1) ((g + 1) * dataCount s.n)

/-! ### The injector and the text adapters -/

/-- 42_stream_ops.md section 5: FLIP inverts the named position and no other, and INJECT is one FLIP per block at its
own position; 70_reset_and_hazards.md section 3: flipping the same position twice restores the block. A position
outside `1..n` is refused (93_implementation_defined.md U10), by INJECT for the first such block; that INJECT without
one position per block is refused is the model's choice (log 14). -/
def Obligations.FlipInvertsExactlyOnePosition : Prop :=
  (∀ (c : Bits) (i : Nat), 1 ≤ i → i ≤ c.length →
    ∃ c' : Bits, flipBlk c i = .next c' ∧ c'.length = c.length ∧ bitAt c' i = !bitAt c i ∧
      (∀ p : Nat, 1 ≤ p → p ≤ c.length → p ≠ i → bitAt c' p = bitAt c p) ∧ flipBlk c' i = .next c) ∧
  (∀ (c : Bits) (i : Nat), i = 0 ∨ c.length < i → flipBlk c i = .refused (.flipPositionOutside i c.length)) ∧
  (∀ (Q : List Bits) (flips : List Nat), Q.length = flips.length →
    (∀ (g : Nat) (c : Bits) (i : Nat), Q[g]? = some c → flips[g]? = some i → 1 ≤ i ∧ i ≤ c.length) →
    ∃ Q' : List Bits, inject Q flips = .next Q' ∧ Q'.length = Q.length ∧
      ∀ (g : Nat) (c : Bits) (i : Nat), Q[g]? = some c → flips[g]? = some i → Q'[g]? = some (flipAt c i)) ∧
  (∀ (Q : List Bits) (flips : List Nat) (g : Nat) (c : Bits) (i : Nat), Q.length = flips.length →
    Q[g]? = some c → flips[g]? = some i → (i = 0 ∨ c.length < i) →
    (∀ (g' : Nat) (c' : Bits) (i' : Nat), g' < g → Q[g']? = some c' → flips[g']? = some i' → 1 ≤ i' ∧ i' ≤ c'.length) →
    inject Q flips = .refused (.flipPositionOutside i c.length)) ∧
  ∀ (Q : List Bits) (flips : List Nat), Q.length ≠ flips.length →
    inject Q flips = .refused (.notOnePositionPerBlock Q.length flips.length)

/-- 42_stream_ops.md section 4: TXT2BITS gives 8 digits per character, most significant first (PRESUMED by the spec,
G1, log 12), BITS2TXT reads them back under every policy (log 13), and text with a code point above 255 is refused
(D14). -/
def Obligations.TextAdaptersInvertEachOther : Prop :=
  (∀ T : List Char, (∀ ch ∈ T, ch.toNat ≤ 255) →
    ∃ B : Bits, txt2bits T = .next B ∧ B.length = 8 * T.length ∧
      (∀ (t : Nat) (ch : Char), T[t]? = some ch → ∀ j : Nat, 1 ≤ j → j ≤ 8 → bitAt B (8 * t + j) = ch.toNat.testBit (8 - j)) ∧
      bits2txt .dropShortChunk B = T ∧ bits2txt (.cutToOriginalLength B.length) B = T ∧
      ∀ id : Nat, bits2txt (.other id B.length) B = T) ∧
  ∀ T : List Char, (∃ ch ∈ T, 255 < ch.toNat) →
    ∃ code : Nat, 255 < code ∧ txt2bits T = .refused (.codePointAbove255 code)

/-- 42_stream_ops.md section 4, on the remainder of BITS2TXT: cutting the decoded Bitstream back to the original
length restores the text exactly, for every size, with or without one flip per block; when `8 * m` is a multiple of
`k` every policy does. A policy the spec does not describe can only add to the text (log 13). -/
def Obligations.TextSurvivesTheWholeLine : Prop :=
  ∀ (n : Nat) (T : List Char) (inj : Option (List Nat)), ValidBlockSize n → (∀ ch ∈ T, ch.toNat ≤ 255) →
    (∀ flips : List Nat, inj = some flips →
      flips.length = groupCount n (8 * T.length) ∧ ∀ i ∈ flips, 1 ≤ i ∧ i ≤ n) →
    ∃ B out : Bits, txt2bits T = .next B ∧ straightLine n B inj = .next out ∧
      bits2txt (.cutToOriginalLength (8 * T.length)) out = T ∧
      (∀ id : Nat, T <+: bits2txt (.other id (8 * T.length)) out) ∧
      (dataCount n ∣ 8 * T.length →
        bits2txt .dropShortChunk out = T ∧ ∀ id : Nat, bits2txt (.other id (8 * T.length)) out = T)
end

