-- ==== Sys2Proof/Laws/Bits.lean ====
section
/-! SUPPORT. Reading and writing positions of a sequence, and exclusive-or over a list of positions. -/

namespace Sys2Proof.Machine

@[simp] theorem bitAt_zero (s : Bits) : bitAt s 0 = false := rfl
@[simp] theorem bitAt_succ (s : Bits) (q : Nat) : bitAt s (q + 1) = s.getD q false := rfl

theorem bitAt_cons_one (b : Bit) (s : Bits) : bitAt (b :: s) 1 = b := rfl
theorem bitAt_cons_succ (b : Bit) (s : Bits) (p : Nat) (hp : 1 ≤ p) : bitAt (b :: s) (p + 1) = bitAt s p := by
  obtain ⟨q, rfl⟩ : ∃ q, p = q + 1 := ⟨p - 1, by omega⟩
  rfl

theorem bitAt_of_length_lt {s : Bits} {p : Nat} (h : s.length < p) : bitAt s p = false := by
  obtain ⟨q, rfl⟩ : ∃ q, p = q + 1 := ⟨p - 1, by omega⟩
  simp [List.getElem?_eq_none (show s.length ≤ q by omega)]

theorem getElem?_eq_bitAt {s : Bits} {p : Nat} (h1 : 1 ≤ p) (h2 : p ≤ s.length) : s[p - 1]? = some (bitAt s p) := by
  obtain ⟨q, rfl⟩ : ∃ q, p = q + 1 := ⟨p - 1, by omega⟩
  simp [List.getElem?_eq_getElem (show q < s.length by omega)]

/-- Two sequences of one length that agree at every position are equal. -/
theorem bits_ext {a b : Bits} (hl : a.length = b.length)
    (h : ∀ p, 1 ≤ p → p ≤ a.length → bitAt a p = bitAt b p) : a = b := by
  refine List.ext_getElem hl fun i h1 h2 => ?_
  have := h (i + 1) (by omega) (by omega)
  simpa [List.getElem?_eq_getElem h1, List.getElem?_eq_getElem h2] using this

@[simp] theorem length_setAt (s : Bits) (p : Nat) (v : Bit) : (setAt s p v).length = s.length := by
  cases p <;> simp [setAt]

@[simp] theorem length_flipAt (s : Bits) (p : Nat) : (flipAt s p).length = s.length := by simp [flipAt]

@[simp] theorem length_zeros (m : Nat) : (zeros m).length = m := by simp [zeros]

theorem bitAt_setAt_self {s : Bits} {p : Nat} (v : Bit) (h1 : 1 ≤ p) (h2 : p ≤ s.length) :
    bitAt (setAt s p v) p = v := by
  obtain ⟨q, rfl⟩ : ∃ q, p = q + 1 := ⟨p - 1, by omega⟩
  simp [setAt, show q < s.length by omega]

theorem bitAt_setAt_ne {s : Bits} {p q : Nat} (v : Bit) (h : q ≠ p) : bitAt (setAt s p v) q = bitAt s q := by
  cases p with
  | zero => rfl
  | succ p' =>
    cases q with
    | zero => rfl
    | succ q' => simp [setAt, show p' ≠ q' by omega]

theorem bitAt_flipAt_self {s : Bits} {p : Nat} (h1 : 1 ≤ p) (h2 : p ≤ s.length) :
    bitAt (flipAt s p) p = !bitAt s p := bitAt_setAt_self _ h1 h2

theorem bitAt_flipAt_ne {s : Bits} {p q : Nat} (h : q ≠ p) : bitAt (flipAt s p) q = bitAt s q :=
  bitAt_setAt_ne _ h

/-- Inverting one position twice restores the sequence. -/
theorem flipAt_flipAt (s : Bits) (p : Nat) : flipAt (flipAt s p) p = s := by
  by_cases hp : 1 ≤ p ∧ p ≤ s.length
  · refine bits_ext (by simp) fun q h1 h2 => ?_
    by_cases hq : q = p
    · subst hq
      rw [bitAt_flipAt_self hp.1 (by simpa using hp.2), bitAt_flipAt_self hp.1 hp.2, Bool.not_not]
    · rw [bitAt_flipAt_ne hq, bitAt_flipAt_ne hq]
  · cases p with
    | zero => rfl
    | succ q =>
      have : s.length ≤ q := by omega
      simp [flipAt, setAt, List.set_eq_of_length_le this]

@[simp] theorem xorAll_nil : xorAll [] = false := rfl
@[simp] theorem xorAll_cons (b : Bit) (es : Bits) : xorAll (b :: es) = Bool.xor b (xorAll es) := rfl

theorem xorAll_append (a b : Bits) : xorAll (a ++ b) = Bool.xor (xorAll a) (xorAll b) := by
  induction a with
  | nil => simp
  | cons x xs ih => simp [ih]

/-- The exclusive-or of a list does not depend on its order. -/
theorem xorAll_perm {a b : Bits} (h : a.Perm b) : xorAll a = xorAll b := by
  induction h with
  | nil => rfl
  | cons x _ ih => simp [ih]
  | swap x y l => simp only [xorAll_cons]; cases x <;> cases y <;> cases xorAll l <;> rfl
  | trans _ _ ih1 ih2 => exact ih1.trans ih2

@[simp] theorem xorOver_nil (s : Bits) : xorOver s [] = false := rfl
@[simp] theorem xorOver_cons (s : Bits) (p : Nat) (S : List Nat) :
    xorOver s (p :: S) = Bool.xor (bitAt s p) (xorOver s S) := rfl

theorem xorOver_append (s : Bits) (S T : List Nat) : xorOver s (S ++ T) = Bool.xor (xorOver s S) (xorOver s T) := by
  simp [xorOver, xorAll_append]

/-- Sequences that agree on the listed positions have the same exclusive-or over them. -/
theorem xorOver_congr {a b : Bits} {S : List Nat} (h : ∀ p ∈ S, bitAt a p = bitAt b p) :
    xorOver a S = xorOver b S := by
  have : S.map (bitAt a) = S.map (bitAt b) := List.map_congr_left h
  simp [xorOver, this]

/-- Inverting a position toggles the exclusive-or over a repetition-free list exactly when the list holds it. -/
theorem xorOver_flipAt {s : Bits} {i : Nat} {S : List Nat} (hS : S.Nodup) (h1 : 1 ≤ i) (h2 : i ≤ s.length) :
    xorOver (flipAt s i) S = Bool.xor (xorOver s S) (decide (i ∈ S)) := by
  induction S with
  | nil => simp
  | cons p S ih =>
    obtain ⟨hp, hS⟩ := List.nodup_cons.mp hS
    rw [xorOver_cons, xorOver_cons, ih hS]
    by_cases hip : i = p
    · subst hip
      simp [bitAt_flipAt_self h1 h2, hp]
    · simp [bitAt_flipAt_ne (Ne.symm hip), hip]

@[simp] theorem length_xorBits (a b : Bits) : (xorBits a b).length = min a.length b.length := by simp [xorBits]

theorem bitAt_xorBits {a b : Bits} (hl : a.length = b.length) (p : Nat) :
    bitAt (xorBits a b) p = Bool.xor (bitAt a p) (bitAt b p) := by
  cases p with
  | zero => rfl
  | succ q =>
    by_cases hq : q < a.length
    · simp [xorBits, hq, hl ▸ hq]
    · have h1 : a.length ≤ q := by omega
      simp [xorBits, h1, hl ▸ h1]

/-- Exclusive-or over positions is linear. -/
theorem xorOver_xorBits {a b : Bits} (hl : a.length = b.length) (S : List Nat) :
    xorOver (xorBits a b) S = Bool.xor (xorOver a S) (xorOver b S) := by
  induction S with
  | nil => rfl
  | cons p S ih =>
    simp only [xorOver_cons, ih, bitAt_xorBits hl]
    cases bitAt a p <;> cases bitAt b p <;> cases xorOver a S <;> cases xorOver b S <;> rfl

end Sys2Proof.Machine
end

