-- ==== Sys2Proof/Laws/Params.lean ====
section
/-! SUPPORT. The small lemmas of the derived parameters and of the position map. -/

namespace Sys2Proof.Machine

theorem two_pow_parityCount_le {n : Nat} (h : 1 ≤ n) : 2 ^ parityCount n ≤ n :=
  Nat.log2_self_le (by omega)

theorem lt_two_pow_parityCount (n : Nat) : n < 2 ^ (parityCount n + 1) := Nat.lt_log2_self

theorem parityCount_lt {n : Nat} (h : 1 ≤ n) : parityCount n < n :=
  lt_of_lt_of_le Nat.lt_two_pow_self (two_pow_parityCount_le h)

theorem dataCount_add {n : Nat} (h : 1 ≤ n) : dataCount n + (parityCount n + 1) = n := by
  have := parityCount_lt h
  simp only [dataCount]
  omega

/-- A number shares a binary digit with `2^j` exactly when its digit of weight `2^j` is 1. -/
theorem and_two_pow_ne_zero (i j : Nat) : (i &&& 2 ^ j) ≠ 0 ↔ i.testBit j = true := by
  rw [Nat.and_two_pow]
  cases i.testBit j <;> simp

theorem isPow2_two_pow (j : Nat) : isPow2 (2 ^ j) = true := by
  have : 0 < 2 ^ j := Nat.two_pow_pos j
  simp [isPow2, Nat.and_two_pow_sub_one_eq_mod, Nat.one_le_iff_ne_zero]

theorem isPow2_iff (p : Nat) : isPow2 p = true ↔ ∃ j, p = 2 ^ j := by
  refine ⟨fun h => ?_, ?_⟩
  · have h1 : 1 ≤ p ∧ p &&& (p - 1) = 0 := by simpa [isPow2] using h
    refine ⟨Nat.log2 p, ?_⟩
    have hlo : 2 ^ Nat.log2 p ≤ p := Nat.log2_self_le (by omega)
    by_contra hne
    have hlt : 2 ^ Nat.log2 p ≤ p - 1 := by omega
    have hhi : p < 2 ^ (Nat.log2 p + 1) := Nat.lt_log2_self
    have t1 : p.testBit (Nat.log2 p) = true := Nat.testBit_log2 (by omega)
    have hlog : Nat.log2 (p - 1) = Nat.log2 p := by
      refine (Nat.log2_eq_iff (by have := Nat.two_pow_pos (Nat.log2 p); omega)).2 ⟨hlt, by omega⟩
    have t2 : (p - 1).testBit (Nat.log2 p) = true := by
      rw [← hlog]; exact Nat.testBit_log2 (by have := Nat.two_pow_pos (Nat.log2 p); omega)
    have : (p &&& (p - 1)).testBit (Nat.log2 p) = true := by simp [Nat.testBit_and, t1, t2]
    rw [h1.2] at this
    simp at this
  · rintro ⟨j, rfl⟩
    exact isPow2_two_pow j

@[simp] theorem mem_positions {n p : Nat} : p ∈ positions n ↔ 1 ≤ p ∧ p ≤ n := by
  simp [positions, List.mem_range'_1]; omega

@[simp] theorem length_positions (n : Nat) : (positions n).length = n := by simp [positions]

theorem nodup_positions (n : Nat) : (positions n).Nodup := List.nodup_range'

theorem positions_pairwise (n : Nat) : (positions n).Pairwise (· < ·) := List.pairwise_lt_range'

theorem mem_parityPositions {n p : Nat} (hn : 1 ≤ n) :
    p ∈ parityPositions n ↔ 1 ≤ p ∧ p ≤ n ∧ isPow2 p = true := by
  simp only [parityPositions, List.mem_map, List.mem_range]
  constructor
  · rintro ⟨j, hj, rfl⟩
    refine ⟨Nat.two_pow_pos j, ?_, isPow2_two_pow j⟩
    exact le_trans (Nat.pow_le_pow_right (by omega) (by omega)) (two_pow_parityCount_le hn)
  · rintro ⟨-, h2, h3⟩
    obtain ⟨j, rfl⟩ := (isPow2_iff p).1 h3
    exact ⟨j, (Nat.pow_lt_pow_iff_right (by omega)).1 (lt_of_le_of_lt h2 (lt_two_pow_parityCount n)), rfl⟩

theorem nodup_parityPositions (n : Nat) : (parityPositions n).Nodup :=
  List.Nodup.map (fun _ _ h => Nat.pow_right_injective (le_refl 2) h) List.nodup_range

theorem mem_dataPositions {n p : Nat} : p ∈ dataPositions n ↔ (1 ≤ p ∧ p ≤ n) ∧ isPow2 p = false := by
  simp [dataPositions]

theorem nodup_dataPositions (n : Nat) : (dataPositions n).Nodup := (nodup_positions n).filter _

/-- The power-of-two positions of a block, in order, are the parity positions up to order. -/
theorem filter_isPow2_perm {n : Nat} (hn : 1 ≤ n) : ((positions n).filter isPow2).Perm (parityPositions n) := by
  refine (List.perm_ext_iff_of_nodup ((nodup_positions n).filter _) (nodup_parityPositions n)).2 fun p => ?_
  rw [mem_parityPositions hn]
  simp [and_assoc]

theorem length_dataPositions {n : Nat} (hn : 1 ≤ n) : (dataPositions n).length = dataCount n := by
  have h1 : ((positions n).filter isPow2).length = parityCount n + 1 := by
    rw [(filter_isPow2_perm hn).length_eq]; simp [parityPositions]
  have h2 := List.length_eq_length_filter_add (l := positions n) isPow2
  have h3 := dataCount_add hn
  simp only [length_positions] at h2
  simp only [dataPositions]
  omega

theorem mem_cover {P n i : Nat} : i ∈ cover P n ↔ (1 ≤ i ∧ i ≤ n) ∧ i &&& P ≠ 0 := by simp [cover]

theorem mem_cover_two_pow {j n i : Nat} : i ∈ cover (2 ^ j) n ↔ (1 ≤ i ∧ i ≤ n) ∧ i.testBit j = true := by
  rw [mem_cover, and_two_pow_ne_zero]

theorem nodup_cover (P n : Nat) : (cover P n).Nodup := (nodup_positions n).filter _

/-- A coverage set holds no parity position but its own. -/
theorem parity_mem_cover {n P P' : Nat} (hn : 1 ≤ n) (hP : P ∈ parityPositions n) (hP' : P' ∈ parityPositions n) :
    P' ∈ cover P n ↔ P' = P := by
  obtain ⟨-, -, h⟩ := (mem_parityPositions hn).1 hP
  obtain ⟨h1, h2, h'⟩ := (mem_parityPositions hn).1 hP'
  obtain ⟨j, rfl⟩ := (isPow2_iff P).1 h
  obtain ⟨j', rfl⟩ := (isPow2_iff P').1 h'
  rw [mem_cover_two_pow, Nat.testBit_two_pow]
  constructor
  · rintro ⟨-, h⟩; rw [of_decide_eq_true h]
  · intro h; exact ⟨⟨h1, h2⟩, by simpa using Nat.pow_right_injective (le_refl 2) h⟩

end Sys2Proof.Machine
end

