-- ==== Sys2Proof/Laws/PerInstr.lean ====
section
/-! SUPPORT. The statement made for each operation as syntax: its word is as long as its tag says exactly when it is
well formed. -/

/-- For every block size: the word of the operation starts with its tag, and it has the length that the tag selects
exactly when the operation is well formed for that size. -/
def Sys2Proof.Laws.WordLength.Statement (i : Sys2Proof.Instr) : Prop :=
  (Sys2Proof.encode i).head? = some i.tag ∧
  ∀ n : Nat, (Sys2Proof.encode i).length = Sys2Proof.wordLength n i.tag ↔ i.wf n = true

theorem Sys2Proof.Laws.WordLength.enc (d : Sys2Proof.Bits) : Sys2Proof.Laws.WordLength.Statement (.enc d) :=
  ⟨rfl, fun n => by
    simp [encode, wordLength, Instr.wf, Instr.operand, Instr.tag, Instr.inputPort, ofTag]; omega⟩

theorem Sys2Proof.Laws.WordLength.dec (c : Sys2Proof.Bits) : Sys2Proof.Laws.WordLength.Statement (.dec c) :=
  ⟨rfl, fun n => by
    simp [encode, wordLength, Instr.wf, Instr.operand, Instr.tag, Instr.inputPort, ofTag]; omega⟩
end

