-- ==== Sys2Proof/Laws/State.lean ====
section
/-! SUPPORT. One lemma per field per update of the state, and what each shared operation on the state can answer. -/

namespace Sys2Proof.Machine

variable (s : State) (c d : Bits) (q : List Bits)

/-! The six outputs, each by the one function of the unit it belongs to. -/

@[simp] theorem State.encCO_eq : s.encCO = encBlock s.n s.encDI := rfl
@[simp] theorem State.decDO_eq : s.decDO = extract s.n (correct s.n s.decCI (syndrome s.n s.decCI)) := rfl
@[simp] theorem State.decSynO_eq : s.decSynO = syndrome s.n s.decCI := rfl
@[simp] theorem State.decCcO_eq : s.decCcO = correct s.n s.decCI (syndrome s.n s.decCI) := rfl
@[simp] theorem State.decErrO_eq : s.decErrO = errFlag (syndrome s.n s.decCI) := rfl
@[simp] theorem State.decOorO_eq : s.decOorO = oorFlag s.n (syndrome s.n s.decCI) := rfl

/-! The wires of each port. -/

@[simp] theorem State.port_encDI : s.port .encDI = s.encDI := rfl
@[simp] theorem State.port_encCO : s.port .encCO = s.encCO := rfl
@[simp] theorem State.port_decCI : s.port .decCI = s.decCI := rfl
@[simp] theorem State.port_decDO : s.port .decDO = s.decDO := rfl
@[simp] theorem State.port_decSynO : s.port .decSynO = lowBits (syndromeWidth s.n) s.decSynO := rfl
@[simp] theorem State.port_decCcO : s.port .decCcO = s.decCcO := rfl
@[simp] theorem State.port_decErrO : s.port .decErrO = [s.decErrO] := rfl
@[simp] theorem State.port_decOorO : s.port .decOorO = [s.decOorO] := rfl

/-! What the three updates of a state leave of the unit they do not write. -/

theorem State.withEncDI_encCO : ({ s with encDI := d } : State).encCO = encBlock s.n d := rfl
theorem State.withEncDI_decResult : ({ s with encDI := d } : State).decResult = s.decResult := rfl
theorem State.withDecCI_encCO : ({ s with decCI := c } : State).encCO = s.encCO := rfl
theorem State.withDecCI_decResult : ({ s with decCI := c } : State).decResult = decBlock s.n c := rfl
theorem State.withIssue_encCO : ({ s with issue := q } : State).encCO = s.encCO := rfl
theorem State.withIssue_decResult : ({ s with issue := q } : State).decResult = s.decResult := rfl

variable (nbits w : Nat)

@[simp] theorem State.withFetchWord_n : (s.withFetchWord nbits w).n = s.n := rfl
@[simp] theorem State.withFetchWord_issue :
    (s.withFetchWord nbits w).issue = tableWordBits s.n nbits w :: s.issue := rfl

@[simp] theorem State.withFetchWord_encDI : (s.withFetchWord nbits w).encDI = s.encDI := rfl
@[simp] theorem State.withFetchWord_decCI : (s.withFetchWord nbits w).decCI = s.decCI := rfl

variable (n : Nat)

@[simp] theorem instanceState_n : (instanceState n q d c).n = n := rfl
@[simp] theorem instanceState_issue : (instanceState n q d c).issue = q := rfl
@[simp] theorem instanceState_encDI : (instanceState n q d c).encDI = d := rfl
@[simp] theorem instanceState_decCI : (instanceState n q d c).decCI = c := rfl

/-- A state is the instance of its size with its operands and its operations to issue: it holds nothing else. -/
theorem instanceState_eta : instanceState s.n s.issue s.encDI s.decCI = s := rfl

@[simp] theorem decBlock_data : (decBlock n c).data = extract n (correct n c (syndrome n c)) := rfl
@[simp] theorem decBlock_syn : (decBlock n c).syn = syndrome n c := rfl
@[simp] theorem decBlock_cc : (decBlock n c).cc = correct n c (syndrome n c) := rfl
@[simp] theorem decBlock_err : (decBlock n c).err = errFlag (syndrome n c) := rfl
@[simp] theorem decBlock_oor : (decBlock n c).oor = oorFlag n (syndrome n c) := rfl

@[simp] theorem errFlag_eq_true (syn : Nat) : errFlag syn = true ↔ syn ≠ 0 := by simp [errFlag]
@[simp] theorem oorFlag_eq_true (syn : Nat) : oorFlag n syn = true ↔ n < syn := by simp [oorFlag]

@[simp] theorem andThen_next {α β : Type} (a : α) (f : α → Host.Outcome β Fault Refusal) :
    andThen (.next a) f = f a := rfl
@[simp] theorem andThen_fault {α β : Type} (e : Fault) (f : α → Host.Outcome β Fault Refusal) :
    andThen (.fault e) f = .fault e := rfl
@[simp] theorem andThen_refused {α β : Type} (x : Refusal) (f : α → Host.Outcome β Fault Refusal) :
    andThen (.refused x) f = .refused x := rfl

/-- A bind that completes completed in both parts. -/
theorem andThen_eq_next {α β : Type} {o : Host.Outcome α Fault Refusal} {f : α → Host.Outcome β Fault Refusal}
    {b : β} (h : andThen o f = .next b) : ∃ a, o = .next a ∧ f a = .next b := by
  cases o with
  | next a => exact ⟨a, rfl, h⟩
  | fault e => cases h
  | refused x => cases h

/-- The configuration check passes a valid block size on. -/
@[simp] theorem withBlockSize_valid {α : Type} {m : Nat} (h : 3 ≤ m) (f : Nat → Host.Outcome α Fault Refusal) :
    withBlockSize m f = f m := by
  have : (3 : Int) ≤ m := by exact_mod_cast h
  simp [withBlockSize, this]

/-- The configuration check raises for every integer below 3. -/
theorem withBlockSize_invalid {α : Type} {m : Int} (h : m < 3) (f : Nat → Host.Outcome α Fault Refusal) :
    withBlockSize m f = .fault (.invalidConfiguration m) := by
  simp [withBlockSize, raise, Int.not_le.mpr h]

/-- What passes the configuration check is a natural number of at least 3. -/
theorem withBlockSize_eq_next {α : Type} {m : Int} {f : Nat → Host.Outcome α Fault Refusal} {a : α}
    (h : withBlockSize m f = .next a) : ∃ k : Nat, m = k ∧ 3 ≤ k ∧ f k = .next a := by
  by_cases hm : 3 ≤ m
  · refine ⟨m.toNat, by omega, by omega, ?_⟩
    simpa [withBlockSize, hm] using h
  · rw [withBlockSize_invalid (by omega)] at h
    cases h

/-- A fitting operand at a port of an existing instance is accepted. -/
theorem presentOperand_fits {p : Port} {x : Bits} {s t : State} (hn : 3 ≤ s.n) (hx : x.length = portWidth s.n p) :
    presentOperand p x s t = .next t := by
  simp [presentOperand, hn, hx]

/-- Presenting an operand completes only in an existing instance and with a fitting operand. -/
theorem presentOperand_eq_next {p : Port} {x : Bits} {s t u : State} (h : presentOperand p x s t = .next u) :
    3 ≤ s.n ∧ x.length = portWidth s.n p ∧ u = t := by
  obtain ⟨k, hk, h3, h⟩ := withBlockSize_eq_next h
  obtain rfl : s.n = k := by exact_mod_cast hk
  by_cases hx : x.length = portWidth s.n p
  · exact ⟨h3, hx, by simpa [hx, eq_comm] using h⟩
  · simp [hx] at h

/-- The ways an operation can complete: the operand fits and stands on the input port of its unit. -/
theorem exec_eq_next {i : Instr} {s t : State} (h : exec i s = .next t) :
    3 ≤ s.n ∧ i.wf s.n = true ∧
    ((∃ d, i = .enc d ∧ t = { s with encDI := d }) ∨
      ∃ c, i = .dec c ∧ t = { s with decCI := c }) := by
  cases i with
  | enc d =>
    obtain ⟨h3, hx, rfl⟩ := presentOperand_eq_next h
    exact ⟨h3, by simpa [Instr.wf, Instr.operand, Instr.inputPort] using hx, .inl ⟨d, rfl, rfl⟩⟩
  | dec c =>
    obtain ⟨h3, hx, rfl⟩ := presentOperand_eq_next h
    exact ⟨h3, by simpa [Instr.wf, Instr.operand, Instr.inputPort] using hx, .inr ⟨c, rfl, rfl⟩⟩

/-- No operation writes the block size or the list of issued operations. -/
theorem exec_frame {i : Instr} {s t : State} (h : exec i s = .next t) : t.n = s.n ∧ t.issue = s.issue := by
  obtain ⟨-, -, ⟨d, -, rfl⟩ | ⟨c, -, rfl⟩⟩ := exec_eq_next h <;> exact ⟨rfl, rfl⟩

/-- A word that decodes is the word of the well-formed operation it decodes to. -/
theorem decode_eq_ok {n : Nat} {w : Bits} {i : Instr} (h : decode n w = .ok i) :
    i.wf n = true ∧ ∃ op operand, w = op :: operand ∧ i = ofTag op operand := by
  cases w with
  | nil => cases h
  | cons op operand =>
    by_cases hw : (ofTag op operand).wf n = true
    · simp only [decode, hw, if_true] at h
      cases h
      exact ⟨hw, op, operand, rfl, rfl⟩
    · simp [decode, hw] at h

/-- The ways a step can complete: nothing is issued and nothing changes, or the issued operation runs. -/
theorem step_eq_next {s t : State} (h : step s = .next t) :
    3 ≤ s.n ∧ ((s.issue = [] ∧ t = s) ∨
      ∃ w rest i, s.issue = w :: rest ∧ decode s.n w = .ok i ∧ exec i { s with issue := rest } = .next t) := by
  obtain ⟨k, hk, h3, h⟩ := withBlockSize_eq_next h
  obtain rfl : s.n = k := by exact_mod_cast hk
  refine ⟨h3, ?_⟩
  cases hq : s.issue with
  | nil =>
    simp only [fetch, hq] at h
    exact .inl ⟨rfl, by cases h; rfl⟩
  | cons w rest =>
    simp only [fetch, hq] at h
    cases hd : decode s.n w with
    | ok i => exact .inr ⟨w, rest, i, rfl, hd, by simpa [hd] using h⟩
    | error e => simp [hd] at h

/-- No step writes the block size. -/
theorem step_n {s t : State} (h : step s = .next t) : t.n = s.n := by
  obtain ⟨-, ⟨-, rfl⟩ | ⟨w, rest, i, -, -, hx⟩⟩ := step_eq_next h
  · rfl
  · exact (exec_frame hx).1

end Sys2Proof.Machine
end

