-- ==== Sys2Proof/Laws/Units.lean ====
section
/-! SUPPORT. What the stages of the two units do to lengths, to positions and to coverage sums. -/

namespace Sys2Proof.Machine

@[simp] theorem length_placeWith (q : Bit) (ps : List Nat) (d : Bits) : (placeWith q ps d).length = ps.length := by
  induction ps generalizing d with
  | nil => rfl
  | cons p ps ih => by_cases h : isPow2 p = true <;> simp [placeWith, h, ih]

@[simp] theorem length_placeData (n : Nat) (d : Bits) : (placeData n d).length = n := by simp [placeData]

@[simp] theorem length_parityStep (n : Nat) (c : Bits) (P : Nat) : (parityStep n c P).length = c.length := by
  simp [parityStep]

@[simp] theorem length_parGenIn (n : Nat) (order : List Nat) (c : Bits) :
    (parGenIn n order c).length = c.length := by
  induction order generalizing c with
  | nil => rfl
  | cons P order ih => simpa [parGenIn] using ih (parityStep n c P)

@[simp] theorem length_encBlock (n : Nat) (d : Bits) : (encBlock n d).length = n := by simp [encBlock, parGen]

@[simp] theorem length_correct (n : Nat) (c : Bits) (s : Nat) : (correct n c s).length = c.length := by
  unfold correct; split <;> simp

theorem length_extract {n : Nat} (hn : 1 ≤ n) (cc : Bits) : (extract n cc).length = dataCount n := by
  simp [extract, length_dataPositions hn]

/-- PLACE over consecutive positions: a power-of-two position holds the placeholder. -/
theorem bitAt_placeWith_parity (q : Bit) (d : Bits) (a m p : Nat) (h1 : a ≤ p) (h2 : p < a + m)
    (hp : isPow2 p = true) : bitAt (placeWith q (List.range' a m) d) (p + 1 - a) = q := by
  induction m generalizing a d with
  | zero => omega
  | succ m ih =>
    rw [List.range'_succ, placeWith]
    by_cases hpa : p = a
    · subst hpa
      rw [show p + 1 - p = 1 by omega]
      simp [hp]
    · obtain ⟨q', hq'⟩ : ∃ q', p + 1 - a = q' + 1 := ⟨p - a, by omega⟩
      have hq1 : 1 ≤ q' := by omega
      split <;> rw [hq', bitAt_cons_succ _ _ _ hq1, show q' = p + 1 - (a + 1) by omega] <;>
        exact ih _ _ (by omega) (by omega)

/-- PLACE leaves the placeholder at every parity position. -/
theorem bitAt_placeData_parity {n P : Nat} (hn : 1 ≤ n) (d : Bits) (hP : P ∈ parityPositions n) :
    bitAt (placeData n d) P = false := by
  obtain ⟨h1, h2, h3⟩ := (mem_parityPositions hn).1 hP
  exact bitAt_placeWith_parity false d 1 n P h1 (by omega) h3

/-- PLACE over consecutive positions: the Bits at the other positions, in order, are the data word, as far as both
reach. -/
theorem map_bitAt_placeWith (q : Bit) (d : Bits) (a m : Nat)
    (hd : d.length = ((List.range' a m).filter fun p => !isPow2 p).length) :
    ((List.range' a m).filter fun p => !isPow2 p).map
      (fun p => bitAt (placeWith q (List.range' a m) d) (p + 1 - a)) = d := by
  induction m generalizing a d with
  | zero => cases d with
    | nil => rfl
    | cons b d => simp at hd
  | succ m ih =>
    have tail : ∀ (b : Bit) (e : Bits), ((List.range' (a + 1) m).filter fun p => !isPow2 p).map
        (fun p => bitAt (b :: placeWith q (List.range' (a + 1) m) e) (p + 1 - a)) =
        ((List.range' (a + 1) m).filter fun p => !isPow2 p).map
        (fun p => bitAt (placeWith q (List.range' (a + 1) m) e) (p + 1 - (a + 1))) := fun b e => by
      refine List.map_congr_left fun p hp => ?_
      have hp' : a + 1 ≤ p := (List.mem_range'_1.1 (List.mem_filter.1 hp).1).1
      rw [show p + 1 - a = (p - a) + 1 by omega, bitAt_cons_succ _ _ _ (by omega),
        show p + 1 - (a + 1) = p - a by omega]
    rw [List.range'_succ] at hd ⊢
    by_cases hp : isPow2 a = true
    · simp only [List.filter_cons, hp, Bool.not_true, Bool.false_eq_true, if_false, placeWith, if_true] at hd ⊢
      rw [tail, ih _ _ hd]
    · have hp' : isPow2 a = false := by simpa using hp
      cases d with
      | nil => simp [hp'] at hd
      | cons b d =>
        simp only [List.filter_cons, hp', Bool.not_false, if_true, List.length_cons, Nat.add_right_cancel_iff] at hd
        simp only [List.filter_cons, hp', Bool.not_false, if_true, placeWith, Bool.false_eq_true, if_false,
          List.map_cons, List.tail_cons]
        rw [tail, ih _ _ hd, show a + 1 - a = 1 by omega]
        rfl

/-- EXTRACT reads back what PLACE placed. -/
theorem extract_placeData {n : Nat} (hn : 1 ≤ n) {d : Bits} (hd : d.length = dataCount n) :
    extract n (placeData n d) = d := by
  have := map_bitAt_placeWith false d 1 n (by rw [hd, ← length_dataPositions hn]; rfl)
  simpa [extract, dataPositions, placeData, positions] using this

/-- PARGEN over any repetition-free list of parity positions writes exactly those, each with the exclusive-or over
its coverage set on the block it was given, when these positions hold 0 there or are not listed. -/
theorem bitAt_parGenIn {n : Nat} (hn : 1 ≤ n) {order : List Nat} (hnd : order.Nodup)
    (hor : ∀ P ∈ order, P ∈ parityPositions n) {c : Bits} (hc : c.length = n) (p : Nat) :
    bitAt (parGenIn n order c) p = if p ∈ order then xorOver c (cover p n) else bitAt c p := by
  induction order generalizing c with
  | nil => simp [parGenIn]
  | cons P order ih =>
    obtain ⟨hP, hnd⟩ := List.nodup_cons.1 hnd
    have hPp := hor P (by simp)
    obtain ⟨h1, h2, -⟩ := (mem_parityPositions hn).1 hPp
    have step := ih hnd (fun Q hQ => hor Q (by simp [hQ])) (c := parityStep n c P) (by simpa using hc)
    rw [show parGenIn n (P :: order) c = parGenIn n order (parityStep n c P) from rfl, step]
    by_cases hp : p ∈ order
    · have hne : p ≠ P := fun h => hP (h ▸ hp)
      rw [if_pos hp, if_pos (by simp [hp])]
      refine xorOver_congr fun i hi => bitAt_setAt_ne _ fun h => hne ?_
      subst h
      exact ((parity_mem_cover hn (hor p (by simp [hp])) hPp).1 hi).symm
    · rw [if_neg hp]
      by_cases hpP : p = P
      · subst hpP
        rw [if_pos (by simp), parityStep, bitAt_setAt_self _ h1 (by omega)]
      · rw [if_neg (by simp [hpP, hp]), parityStep, bitAt_setAt_ne _ hpP]

/-- Every position of a fresh block: a parity position holds the sum over its coverage set before PARGEN, any other
position what PLACE put there. -/
theorem bitAt_encBlock {n : Nat} (hn : 1 ≤ n) (d : Bits) (p : Nat) :
    bitAt (encBlock n d) p =
      if p ∈ parityPositions n then xorOver (placeData n d) (cover p n) else bitAt (placeData n d) p :=
  bitAt_parGenIn hn (nodup_parityPositions n) (fun _ h => h) (by simp) p

/-- EXTRACT reads the data word out of a fresh block. -/
theorem extract_encBlock {n : Nat} (hn : 1 ≤ n) {d : Bits} (hd : d.length = dataCount n) :
    extract n (encBlock n d) = d := by
  rw [← extract_placeData hn hd]
  refine List.map_congr_left fun p hp => ?_
  have hp' := mem_dataPositions.1 hp
  rw [bitAt_encBlock hn, extract_placeData hn hd, if_neg]
  rw [mem_parityPositions hn]
  simp [hp'.2]

/-- The parity positions of a coverage set are its own one only, so the rest of it is data positions. -/
theorem cover_filter_parity {n P : Nat} (hn : 1 ≤ n) (hP : P ∈ parityPositions n) {i : Nat} (hi : i ∈ cover P n) :
    i = P ∨ isPow2 i = false := by
  by_cases h : isPow2 i = true
  · obtain ⟨h12, -⟩ := mem_cover.1 hi
    exact .inl ((parity_mem_cover hn hP ((mem_parityPositions hn).2 ⟨h12.1, h12.2, h⟩)).1 hi)
  · exact .inr (by simpa using h)

/-- SYND, digit by digit: bit `j` is the exclusive-or over the coverage set of `2^j`, for the checks that are made. -/
theorem testBit_syndromeUpTo (n : Nat) (c : Bits) (m j : Nat) :
    (syndromeUpTo m n c).testBit j = (decide (j < m) && xorOver c (cover (2 ^ j) n)) := by
  suffices h : syndromeUpTo m n c < 2 ^ m ∧
      ∀ j, (syndromeUpTo m n c).testBit j = (decide (j < m) && xorOver c (cover (2 ^ j) n)) from h.2 j
  induction m with
  | zero => simp [syndromeUpTo]
  | succ m ih =>
    have hstep : syndromeUpTo (m + 1) n c = syndStep n c (syndromeUpTo m n c) (2 ^ m) := by
      simp [syndromeUpTo, List.range_succ, List.foldl_append]
    rw [hstep, syndStep]
    by_cases hx : xorOver c (cover (2 ^ m) n) = true
    · rw [if_pos hx]
      refine ⟨by rw [Nat.pow_succ]; omega, fun j => ?_⟩
      rw [Nat.add_comm]
      rcases Nat.lt_trichotomy j m with h | rfl | h
      · rw [Nat.testBit_two_pow_add_gt h, ih.2]
        simp [h, Nat.lt_succ_of_lt h]
      · rw [Nat.testBit_two_pow_add_eq, ih.2]
        simp [hx]
      · have hlt : 2 ^ m + syndromeUpTo m n c < 2 ^ j := by
          have : 2 ^ (m + 1) ≤ 2 ^ j := Nat.pow_le_pow_right (by omega) (by omega)
          rw [Nat.pow_succ] at this
          omega
        rw [Nat.testBit_lt_two_pow hlt]
        simp [show ¬ j < m + 1 by omega]
    · rw [if_neg hx]
      refine ⟨by rw [Nat.pow_succ]; omega, fun j => ?_⟩
      rw [ih.2]
      rcases Nat.lt_trichotomy j m with h | rfl | h
      · simp [h, Nat.lt_succ_of_lt h]
      · simp [hx]
      · simp [show ¬ j < m by omega, show ¬ j < m + 1 by omega]

theorem testBit_syndrome (n : Nat) (c : Bits) (j : Nat) :
    (syndrome n c).testBit j = (decide (j < syndromeWidth n) && xorOver c (cover (2 ^ j) n)) :=
  testBit_syndromeUpTo n c _ j

/-- The syndrome fits its wires. -/
theorem syndrome_lt (n : Nat) (c : Bits) : syndrome n c < 2 ^ syndromeWidth n := by
  refine Nat.lt_pow_two_of_testBit _ fun j hj => ?_
  rw [testBit_syndrome]
  simp [Nat.not_lt.2 hj]

end Sys2Proof.Machine
end

