-- ==== Sys2Proof/Tests/Slice0.lean ====
section
/-! SUPPORT. Tests against vectors the spec writes out, ill-formed terms that the checks refuse, and for each statement
a concrete input that meets its hypotheses. Expected values are from spec/95_test_vectors.md unless a comment says
otherwise. -/

namespace Sys2Proof.Tests

open Sys2Proof Sys2Proof.Machine

/-- A Bit sequence written as digits. -/
def bits (ds : List Nat) : Bits := ds.map (· == 1)

/-- An instance of size `n` with 0 on its input ports and the given words to issue. -/
def inst (n : Nat) (issue : List Bits) : State := instanceState n issue (zeros (dataCount n)) (zeros n)

/-! ### Well-formedness and decoding -/

theorem test_wf_accepts : (Instr.enc (bits [1,0,1,1])).wf 8 = true ∧ (Instr.dec (zeros 8)).wf 8 = true := by decide
theorem test_wf_refuses_short_data : (Instr.enc (bits [1,0,1])).wf 8 = false := by decide
theorem test_wf_refuses_long_data : (Instr.enc (bits [1,0,1,1,0])).wf 8 = false := by decide
theorem test_wf_refuses_short_block : (Instr.dec (zeros 7)).wf 8 = false := by decide
theorem test_wf_refuses_long_block : (Instr.dec (zeros 9)).wf 8 = false := by decide
theorem test_decode_refuses_empty_word : decode 8 [] = .error .noOperationTag := by decide
theorem test_decode_refuses_misfit : decode 8 (bits [1,0,1]) = .error (.operandLength 2 8) := by decide

/-- P1 step 1: `op = 0`, operand `"1011"`; the word is the tag and then the operand. -/
theorem test_decode_enc : decode 8 (bits [0, 1,0,1,1]) = .ok (.enc (bits [1,0,1,1])) := by decide
/-- P2 step 3: `op = 1`, operand `"01101110"`. -/
theorem test_decode_dec : decode 8 (bits [1, 0,1,1,0,1,1,1,0]) = .ok (.dec (bits [0,1,1,0,1,1,1,0])) := by decide
/-- V15: `dec_c_i = 8'b01101011` above the tag 1. -/
theorem test_decode_word : decodeWord 8 0b011010111 = .ok (.dec (bits [1,1,0,1,0,1,1,0])) := by decide
theorem test_table_enc : decodeTableWord 8 0 = some (.enc (zeros 4)) := by decide
theorem test_table_dec : decodeTableWord 8 1 = some (.dec (zeros 8)) := by decide

/-! ### The two operations -/

/-- S1: `ENC 8, "1011" => "01100110"`. -/
theorem test_enc_scenario : completesWith (exec (.enc (bits [1,0,1,1])) (inst 8 []))
    (fun t => t.encCO == bits [0,1,1,0,0,1,1,0] && t.decDO == zeros 4) = true := by decide
/-- V3: `ENC 17, "000000000001" => "10000000000000011"`, a data position above `2^r`. -/
theorem test_enc_17 : completesWith (exec (.enc (bits [0,0,0,0,0,0,0,0,0,0,0,1])) (inst 17 []))
    (fun t => t.encCO == bits [1,0,0,0,0,0,0,0,0,0,0,0,0,0,0,1,1]) = true := by decide
/-- S1: `DEC 8, "01101110" => "1011" syn=5 cc="01100110" err=1 oor=0`. -/
theorem test_dec_scenario : completesWith (exec (.dec (bits [0,1,1,0,1,1,1,0])) (inst 8 []))
    (fun t => t.decDO == bits [1,0,1,1] && t.decSynO == 5 && t.decCcO == bits [0,1,1,0,0,1,1,0] && t.decErrO &&
      !t.decOorO) = true := by decide
/-- V8: `DEC 8, "01100101" => "1010" syn=15 cc="01100101" err=1 oor=1`. -/
theorem test_dec_out_of_range : completesWith (exec (.dec (bits [0,1,1,0,0,1,0,1])) (inst 8 []))
    (fun t => t.decDO == bits [1,0,1,0] && t.decSynO == 15 && t.decCcO == bits [0,1,1,0,0,1,0,1] && t.decErrO &&
      t.decOorO) = true := by decide

/-- V15: `dec_syn_o = 4'b0110` and `dec_cc_o = 8'b01001011` after `DEC 8, "11010110"`. -/
theorem test_wires : completesWith (exec (.dec (bits [1,1,0,1,0,1,1,0])) (inst 8 []))
    (fun t => t.portValue .decSynO == 0b0110 && t.portValue .decCcO == 0b01001011) = true := by decide

/-- The table words run as the first operation after reset. -/
theorem test_first_step : completesWith (step (State.reset.withFetchWord 8 0)) (· == State.reset) = true ∧
    completesWith (step (State.reset.withFetchWord 8 1)) (· == State.reset) = true := by decide
/-- Reset shows the instance that building size 8 gives. -/
theorem test_reset_is_built : completesWith (buildInstance 8) (· == State.reset) = true := by decide

/-! ### Parameters, streams, lines, injector, text, notation -/

/-- V1: the rows for 7, 8, 16 and 1000. -/
theorem test_params : (parityCount 7, dataCount 7, syndromeWidth 7) = (2, 4, 3) ∧
    (parityCount 8, dataCount 8, syndromeWidth 8) = (3, 4, 4) ∧
    (parityCount 16, dataCount 16, syndromeWidth 16) = (4, 11, 5) ∧
    (parityCount 1000, dataCount 1000, syndromeWidth 1000) = (9, 990, 10) := by decide
/-- 30_encoding.md, the table of layouts: the row for 9. -/
theorem test_layout : layout 9 = ['p','p','d','p','d','d','d','p','d'] ∧ dataPositions 9 = [3, 5, 6, 7, 9] := by decide
/-- V11: `ENCSTREAM 8, "1011001110"`. -/
theorem test_encstream : completesWith (encStream 8 (bits [1,0,1,1,0,0,1,1,1,0]))
    (· == [bits [0,1,1,0,0,1,1,0], bits [1,0,0,0,0,1,1,0], bits [1,1,1,0,0,0,0,0]]) = true := by decide
/-- V12: `DECSTREAM 8, ["1001100", "11100002"]` is `InvalidBlockFormat(1)`. -/
theorem test_decstream_lowest_index : decStream 8 [['1','0','0','1','1','0','0'], ['1','1','1','0','0','0','0','2']] =
    .fault (.invalidBlockFormat 1) := by rfl
/-- V12: `DECSTREAM 2, ["1x"]` is `InvalidConfiguration(2)`. -/
theorem test_decstream_configuration_first : decStream 2 [['1','x']] = .fault (.invalidConfiguration 2) := by rfl
/-- P3: the stream of "Hi" with one flip in every block. -/
theorem test_straight_line : completesWith
    (straightLine 8 (bits [0,1,0,0,1,0,0,0,0,1,1,0,1,0,0,1]) (some [5, 1, 8, 3]))
    (· == bits [0,1,0,0,1,0,0,0,0,1,1,0,1,0,0,1]) = true := by decide
/-- V12: `"0110011x"` is refused, `"01100110"` is the block. -/
theorem test_parseblk : parseBlk 8 3 ['0','1','1','0','0','1','1','x'] = .fault (.invalidBlockFormat 3) ∧
    completesWith (parseBlk 8 3 ['0','1','1','0','0','1','1','0']) (· == bits [0,1,1,0,0,1,1,0]) = true :=
  ⟨rfl, by decide⟩
/-- V13: `FLIP "01100110", 8`, and position 9, which is outside. -/
theorem test_flip : completesWith (flipBlk (bits [0,1,1,0,0,1,1,0]) 8) (· == bits [0,1,1,0,0,1,1,1]) = true ∧
    flipBlk (bits [0,1,1,0,0,1,1,0]) 9 = .refused (.flipPositionOutside 9 8) := ⟨by decide, rfl⟩
/-- V14: `TXT2BITS "A" => "01000001"`, and back. -/
theorem test_text : completesWith (txt2bits ['A']) (· == bits [0,1,0,0,0,0,0,1]) = true ∧
    bits2txt .dropShortChunk (bits [0,1,0,0,0,0,0,1]) = ['A'] := by decide
/-- R110: the text of one character 0 comes back as it was; its chunk of zeros is no padding. -/
theorem test_text_nul : completesWith (txt2bits [Char.ofNat 0])
    (fun B => B == zeros 8 && bits2txt (.other 0 B.length) B == [Char.ofNat 0]) = true := by decide
/-- 30_encoding.md, the line form of R61, with the result of V4: `ENC 8, "1011" => "01100110"`. -/
theorem test_notation : printLine 8 (.enc (bits [1,0,1,1])) =
    ['E','N','C',' ','8',',',' ','"','1','0','1','1','"',' ','=','>',' ','"','0','1','1','0','0','1','1','0','"'] ∧
    completesWith (parseOp (printOp 8 (.enc (bits [1,0,1,1])))) (· == (8, .enc (bits [1,0,1,1]))) = true := by decide
/-- V4 and V15: the netlist view gives the same word and results. -/
theorem test_netlist : encNet 8 (bits [1,0,1,1]) = bits [0,1,1,0,0,1,1,0] ∧
    decNet 8 (bits [0,1,1,0,1,1,1,0]) = ⟨bits [1,0,1,1], 5, bits [0,1,1,0,0,1,1,0], true, false⟩ := by decide

/-! ### Inputs that meet the hypotheses of the statements

A valid code word of size 8 and its data word, the source's scenario, serve most of them. -/

/-- The code word of S1. -/
def w8 : Bits := bits [0,1,1,0,0,1,1,0]
/-- The data word of S1. -/
def d8 : Bits := bits [1,0,1,1]

theorem witness_ParityCountIsFloorOfLog2 : 1 ≤ 1 ∧ 2 ^ 0 ≤ 1 ∧ 1 < 2 ^ (0 + 1) ∧ parityCount 1 < 1 := by decide
theorem witness_ValidSizesAreThoseWithADataBit : 1 ≤ 2 ∧ ¬ ValidBlockSize 2 ∧ ValidBlockSize 3 := by decide
theorem witness_ParityPositionsAreThePowersOfTwo : ValidBlockSize 3 := by decide
theorem witness_DataPositionsAreTheOthersInOrder : ValidBlockSize 3 := by decide
theorem witness_PlacesGoToTheirClosedFormPositions :
    ValidBlockSize 3 ∧ 1 ≤ 1 ∧ 1 ≤ dataCount 3 ∧ isPow2 3 = false ∧ place 3 = 1 := by decide
theorem witness_CoverageSetsReadOneBinaryDigit :
    ValidBlockSize 8 ∧ 8 ∈ parityPositions 8 ∧ 7 ∈ dataPositions 8 ∧ isPow2 8 = true := by decide
theorem witness_EncPlacesDataAndGeneratesParity :
    ValidBlockSize 8 ∧ d8.length = dataCount 8 ∧ 8 ∈ parityPositions 8 ∧ 1 ≤ dataCount 8 ∧ State.reset.n = 8 := by decide
theorem witness_EncClosedForm : ValidBlockSize State.reset.n ∧ d8.length = dataCount State.reset.n ∧
    3 ≤ parityCount State.reset.n := by decide
theorem witness_ParityOrderDoesNotMatter :
    ValidBlockSize 8 ∧ d8.length = dataCount 8 ∧ [8, 2, 4, 1].Perm (parityPositions 8) := by decide
theorem witness_PlaceholderDecidesTheFreshSyndrome : ValidBlockSize 8 ∧ d8.length = dataCount 8 := by decide
theorem witness_EncIsLinearAndInjective : ValidBlockSize 8 ∧ d8.length = dataCount 8 ∧
    (zeros 4).length = dataCount 8 ∧ encBlock 8 d8 = encBlock 8 d8 := by decide
theorem witness_PowerOfTwoSizeWastesItsLastBit : 4 ≤ 4 ∧ isPow2 4 = true ∧ (bits [1]).length = dataCount 4 := by decide
theorem witness_SizeThreeIsRepetitionAndMajority : (inst 3 []).n = 3 := by decide
theorem witness_ValidCodeWordsAreTheOutputsOfEnc : ValidBlockSize 8 ∧ d8.length = dataCount 8 ∧ ValidCodeWord 8 w8 := by
  decide
theorem witness_ValidCodeWordsDifferInThreePositions :
    ValidBlockSize 8 ∧ ValidCodeWord 8 w8 ∧ ValidCodeWord 8 (zeros 8) ∧ w8 ≠ zeros 8 := by decide
theorem witness_EverySyndromeIsTakenEquallyOften : ValidBlockSize 8 ∧ 15 < 2 ^ syndromeWidth 8 := by decide
theorem witness_ClassicalSizesArePerfect : ValidBlockSize 3 ∧ (zeros 3).length = 3 ∧ isClassicalSize 3 = true ∧
    ValidCodeWord 3 (zeros 3) ∧ (differences 3 (zeros 3) (zeros 3)).length ≤ 1 := by decide
/-- V8: `DEC 8, "11100111"` has syndrome 9, the first above `n`. -/
theorem witness_ClassicalSizesArePerfect_above : ValidBlockSize 8 ∧ 8 < syndrome 8 (bits [1,1,1,0,0,1,1,1]) ∧
    ValidCodeWord 8 w8 := by decide
theorem witness_SyndromesAboveNExistExactlyAtNonClassicalSizes :
    ValidBlockSize 8 ∧ isClassicalSize 8 = false ∧ isClassicalSize 7 = true ∧ 8 < 9 ∧ 9 < 2 ^ syndromeWidth 8 := by decide
theorem witness_SyndromeIsTheXorOfOnePositions :
    ValidBlockSize 8 ∧ w8.length = 8 ∧ (zeros 8).length = 8 ∧ 1 ≤ 8 ∧ ∀ i ∈ [1, 8], 1 ≤ i ∧ i ≤ 8 := by decide
theorem witness_SyndromeLoopBoundDoesNotMatter : ValidBlockSize 8 ∧ w8.length = 8 ∧ syndromeWidth 8 ≤ 5 := by decide
theorem witness_AllOneBlockSyndrome : ValidBlockSize 3 ∧ 4 % 4 = 0 ∧ 5 % 4 = 1 ∧ 6 % 4 = 2 ∧ 3 % 4 = 3 := by decide
/-- V4 and V8: syndromes 0, 1, 8 = `n` and 9 = `n + 1` at size 8. -/
theorem witness_DecGivesTheFiveResults : ValidBlockSize 8 ∧ State.reset.n = 8 ∧ w8.length = 8 ∧ syndrome 8 w8 = 0 ∧
    syndrome 8 (flipAt w8 1) = 1 ∧ syndrome 8 (flipAt w8 8) = 8 ∧ syndrome 8 (bits [1,1,1,0,0,1,1,1]) = 9 := by decide
theorem witness_SyndromeAboveNInvertsNothing : ValidBlockSize State.reset.n ∧
    (bits [1,1,1,0,0,1,1,1]).length = State.reset.n ∧ State.reset.n < syndrome State.reset.n (bits [1,1,1,0,0,1,1,1]) ∧
    ValidCodeWord 8 w8 ∧ 1 ≤ 8 ∧ 7 = 2 ^ (parityCount 7 + 1) - 1 := by decide
theorem witness_StatusOutputsReportTheSyndrome : ValidBlockSize State.reset.n ∧ w8.length = State.reset.n ∧
    (decBlock 8 w8).err = false ∧ (decBlock 8 (flipAt w8 8)).err = true ∧ (decBlock 8 (flipAt w8 8)).oor = false ∧
    (decBlock 8 (bits [1,1,1,0,0,1,1,1])).oor = true := by decide
theorem witness_SyndromeNamesTheFlippedPosition :
    ValidBlockSize State.reset.n ∧ ValidCodeWord State.reset.n w8 ∧ 1 ≤ 8 ∧ 8 ≤ State.reset.n := by decide
theorem witness_AnySingleFlipIsCorrected :
    ValidBlockSize State.reset.n ∧ ValidCodeWord State.reset.n w8 ∧ 1 ≤ 8 ∧ 8 ≤ State.reset.n := by decide
theorem witness_BlockRoundTrip : ValidBlockSize State.reset.n ∧ d8.length = dataCount State.reset.n := by decide
/-- V6 and V8: flips 3 and 5 stay in range (6), flips 7 and 8 (15) and 4 and 8 (12) do not. -/
theorem witness_TwoFlipsAreMiscorrectedOrOutOfRange : ValidBlockSize State.reset.n ∧ ValidCodeWord State.reset.n w8 ∧
    syndrome 8 (flipAt (flipAt w8 3) 5) = 6 ∧ syndrome 8 (flipAt (flipAt w8 7) 8) = 15 ∧
    syndrome 8 (flipAt (flipAt w8 4) 8) = 12 := by decide
theorem witness_ThreeFlipsCanPassUnnoticed : ValidBlockSize State.reset.n ∧ ValidCodeWord State.reset.n w8 := by decide
theorem witness_CorrectedBlockIsTheCodeWordOfItsData : ValidBlockSize State.reset.n ∧ w8.length = State.reset.n ∧
    syndrome 8 (flipAt w8 8) ≤ 8 ∧ 8 < syndrome 8 (bits [1,1,1,0,0,1,1,1]) := by decide
theorem witness_ParityFlipChangesNoData :
    ValidBlockSize State.reset.n ∧ ValidCodeWord State.reset.n w8 ∧ 8 ∈ parityPositions State.reset.n := by decide
theorem witness_InvalidConfigurationExactlyBelowThree : (2 : Int) < 3 ∧ (-1 : Int) < 3 ∧ ValidBlockSize 3 := by decide
theorem witness_NoOperationRunsBelowThree : (inst 2 []).n < 3 ∧ (inst 0 []).n < 3 := by decide
theorem witness_MisfittingOperandIsRefused : ValidBlockSize State.reset.n ∧
    (Instr.dec (zeros 7)).operand.length ≠ portWidth State.reset.n .decCI ∧
    (Instr.enc (zeros 5)).operand.length ≠ portWidth State.reset.n .encDI := by decide
theorem witness_EveryBuiltInstanceMeetsInv : ValidBlockSize 3 := by decide
/-- Size 3, with one operation to issue, so that a step completes. -/
theorem witness_StepKeepsInv : (inst 3 [encode (.enc [true])]).Inv ∧
    completesWith (step (inst 3 [encode (.enc [true])])) (fun t => t.encCO == bits [1,1,1]) = true :=
  ⟨⟨by decide, ⟨fun p => by cases p <;> decide, by decide⟩, by decide, by decide, by decide, by decide⟩, by decide⟩
theorem witness_WiresCarryPositionsInOrder : (inst 3 []).Inv ∧ 1 ≤ dataCount 3 ∧ 1 < syndromeWidth 3 :=
  ⟨⟨by decide, ⟨fun p => by cases p <;> decide, by decide⟩, by decide, by decide, by decide, by decide⟩,
    by decide, by decide⟩
theorem witness_StepRunsTheIssuedOperation : ValidBlockSize 8 ∧
    (inst 8 [encode (.enc d8)]).issue = encode (.enc d8) :: [] ∧ decode 8 (encode (.enc d8)) = .ok (.enc d8) ∧
    (Instr.enc d8).wf 8 = true ∧ decode 8 [] = .error .noOperationTag ∧ (inst 8 []).issue = [] := by decide
theorem witness_BlockSizeNeverChanges :
    completesWith (step (inst 8 [encode (.dec w8)])) (fun t => t.n == 8 && t.decDO == d8) = true := by decide
theorem witness_ResultsDoNotDependOnEarlierOperations : ValidBlockSize 8 ∧
    (∀ e ∈ [Instr.dec w8], e.wf 8 = true) ∧ (Instr.enc d8).wf 8 = true ∧
    (inst 8 [encode (.dec w8), encode (.enc d8)]).issue = ([Instr.dec w8] ++ [Instr.enc d8]).map encode ++ [] := by decide
theorem witness_OperationsCommuteAndRepeat : ValidBlockSize State.reset.n ∧ d8.length = dataCount State.reset.n ∧
    w8.length = State.reset.n ∧ (Instr.enc d8).wf State.reset.n = true ∧ (Instr.dec w8).wf State.reset.n = true := by
  decide
theorem witness_DecodeEncodeAgree : ValidBlockSize 8 ∧ (Instr.enc d8).wf 8 = true ∧ (Instr.dec w8).wf 8 = true ∧
    decode 8 (encode (.dec w8)) = .ok (.dec w8) ∧ encodeWord (.dec w8) = encodeWord (.dec w8) := by decide
theorem witness_TableWordRunsNext : ValidBlockSize State.reset.n := by decide
theorem witness_TwoValuedLevelsShowTheBlock : ValidBlockSize 8 ∧ d8.length = dataCount 8 ∧ w8.length = 8 ∧
    [Level.low, .high, .unknown, .highImpedance].length = dataCount 8 := by decide
theorem witness_NetlistComputesTheBlock : ValidBlockSize 8 ∧ d8.length = dataCount 8 ∧ w8.length = 8 ∧
    8 ∈ parityPositions 8 := by decide
theorem witness_LinesCarryBlocksExactly :
    (['0','1','1'].length = 3 ∧ ∀ ch ∈ ['0','1','1'], ch = '0' ∨ ch = '1') ∧
    ¬ (['0','1'].length = 3 ∧ ∀ ch ∈ ['0','1'], ch = '0' ∨ ch = '1') ∧
    ¬ (['0','1','x'].length = 3 ∧ ∀ ch ∈ ['0','1','x'], ch = '0' ∨ ch = '1') := by simp
theorem witness_NotationReadsBack : ValidBlockSize 8 ∧ (Instr.enc d8).wf 8 = true ∧ (Instr.dec w8).wf 8 = true := by decide
theorem witness_EncStreamEncodesConsecutiveGroups : ValidBlockSize 8 ∧ (bits [1,0,1,1,0]).length ≤ 2 * dataCount 8 := by
  decide
theorem witness_EmptyStreamsAreEmpty : ValidBlockSize 3 ∧ (2 : Int) < 3 := by decide
/-- V12: the second of three lines has 7 characters. -/
theorem witness_DecStreamChecksAllThenDecodes : ValidBlockSize 3 ∧ 1 < [['0','0','0'], ['0','0']].length ∧
    [['0','0','0'], ['0','0']][1]? = some ['0','0'] ∧ [['0','0','0'], ['0','0']][0]? = some ['0','0','0'] ∧
    ∀ line ∈ [['0','0','0'], ['1','1','1']], line.length = 3 ∧ ∀ ch ∈ line, ch = '0' ∨ ch = '1' := by
  refine ⟨by decide, by decide, rfl, rfl, by simp⟩
theorem witness_StreamRoundTrip : ValidBlockSize 8 := by decide
theorem witness_StreamSurvivesOneFlipPerBlock : ValidBlockSize 8 ∧
    [1, 8].length = groupCount 8 (bits [1,0,1,1,0]).length ∧ ∀ i ∈ [1, 8], 1 ≤ i ∧ i ≤ 8 := by decide
theorem witness_StreamsSplitAtBlockBoundaries : ValidBlockSize 8 ∧ dataCount 8 ∣ d8.length ∧
    completesWith (encStream 8 d8) (· == [w8]) = true ∧ completesWith (encStream 8 [true]) (fun _ => true) = true ∧
    completesWith (decStream 8 [printBlk w8]) (· == d8) = true := by decide
theorem witness_MismatchedSizeIsCaughtOnlyByLength : ValidBlockSize 8 ∧ ValidBlockSize 4 ∧ 8 ≠ 4 ∧ [w8] ≠ [] ∧
    (∀ c ∈ [w8], c.length = 8) ∧ (inst 4 []).n = 4 ∧ 4 ∣ w8.length := by decide
theorem witness_StreamOperationsExpandToSteps : ValidBlockSize 8 ∧ completesWith (encStream 8 d8) (· == [w8]) = true ∧
    (inst 8 [encode (.enc d8)]).issue = (dataGroups 8 d8).map (fun grp => encode (.enc grp)) ∧
    completesWith (decStream 8 [printBlk w8]) (· == d8) = true ∧
    (inst 8 [encode (.dec w8)]).issue = [printBlk w8].map (fun line => encode (.dec (lineBits line))) ∧
    0 < [w8].length := by decide
theorem witness_FlipInvertsExactlyOnePosition : 1 ≤ 8 ∧ 8 ≤ w8.length ∧ w8.length < 9 ∧ [w8].length = [8].length ∧
    [w8].length ≠ [1, 2].length ∧ [w8][0]? = some w8 ∧ [8][0]? = some 8 := by decide
/-- V13: position 9 is outside; it is the second position given, and the first is inside. -/
theorem witness_FlipInvertsExactlyOnePosition_outside : [w8, w8].length = [8, 9].length ∧
    [w8, w8][1]? = some w8 ∧ [8, 9][1]? = some 9 ∧ w8.length < 9 ∧ [w8, w8][0]? = some w8 ∧ 1 ≤ 8 ∧ 8 ≤ w8.length ∧
    inject [w8, w8] [8, 9] = .refused (.flipPositionOutside 9 8) := by
  refine ⟨rfl, rfl, rfl, by decide, rfl, by decide, by decide, rfl⟩
theorem witness_TextAdaptersInvertEachOther : (∀ ch ∈ ['H', 'i'], ch.toNat ≤ 255) ∧ ['H', 'i'][1]? = some 'i' ∧
    ∃ ch ∈ ['Ā'], 255 < ch.toNat := ⟨by simp, rfl, 'Ā', by simp, by decide⟩
theorem witness_TextSurvivesTheWholeLine : ValidBlockSize 8 ∧ (∀ ch ∈ ['H', 'i'], ch.toNat ≤ 255) ∧
    [5, 1, 8, 3].length = groupCount 8 (8 * ['H', 'i'].length) ∧ (∀ i ∈ [5, 1, 8, 3], 1 ≤ i ∧ i ≤ 8) ∧
    dataCount 8 ∣ 8 * ['H', 'i'].length := ⟨by decide, by simp, by decide, by decide, by decide⟩

end Sys2Proof.Tests
end

section
/-! PROOFS of 00_scope.md: the exact integer logarithm. -/

namespace Sys2Proof.Machine

/-- R9: the two bounds leave room for one exponent only. -/
theorem eq_parityCount_of_bounds {n r : Nat} (hle : 2 ^ r ≤ n) (hlt : n < 2 ^ (r + 1)) : r = parityCount n :=
  have hn : n ≠ 0 := (lt_of_lt_of_le (Nat.two_pow_pos r) hle).ne'
  ((Nat.log2_eq_iff hn).2 ⟨hle, hlt⟩).symm

theorem testBit_parityCount {n : Nat} (h : 1 ≤ n) : n.testBit (parityCount n) = true :=
  Nat.testBit_of_two_pow_le_and_two_pow_add_one_gt (two_pow_parityCount_le h) (lt_two_pow_parityCount n)

theorem testBit_above_parityCount {n j : Nat} (h : parityCount n < j) : n.testBit j = false :=
  have hpow : 2 ^ (parityCount n + 1) ≤ 2 ^ j := Nat.pow_le_pow_right (by decide) h
  Nat.testBit_eq_false_of_lt (lt_of_lt_of_le (lt_two_pow_parityCount n) hpow)

/-- Settles O1: the bounds of `Nat.log2` fix the exponent, and both bit facts follow from the bounds alone. -/
theorem parityCountIsFloorOfLog2 : Obligations.ParityCountIsFloorOfLog2 := by
  intro n hn
  exact ⟨two_pow_parityCount_le hn, lt_two_pow_parityCount n, fun _ => eq_parityCount_of_bounds,
    testBit_parityCount hn, fun _ => testBit_above_parityCount⟩

end Sys2Proof.Machine
end

section
/-! PROOFS of 20_memory.md: the order of positions, places and syndrome bits on the wires. -/

namespace Sys2Proof.Machine

theorem getElem?_lowBits {len j : Nat} (w : Nat) (h : j < len) : (lowBits len w)[j]? = some (w.testBit j) := by
  simp [lowBits, h]

theorem lowBits_succ (len w : Nat) : lowBits (len + 1) w = w.testBit 0 :: lowBits len (w / 2) := by
  simp [lowBits, List.range_succ_eq_map, Nat.testBit_succ]

/-- Reading back the low Bits of a number loses exactly the digits of weight `2^len` and above. -/
theorem wordValue_lowBits (len w : Nat) : wordValue (lowBits len w) = w % 2 ^ len := by
  induction len generalizing w with
  | zero => simp [lowBits, wordValue, Nat.mod_one]
  | succ len ih =>
    calc wordValue (lowBits (len + 1) w)
        = (w.testBit 0).toNat + 2 * (w / 2 % 2 ^ len) := by rw [lowBits_succ, wordValue, ih]
      _ = w % 2 + 2 * (w / 2 % 2 ^ len) := by rw [Nat.toNat_testBit, pow_zero, Nat.div_one]
      _ = w % 2 ^ (len + 1) := by rw [pow_succ', Nat.mod_mul]

/-- R34: `PortsFit` gives every port as many wires as it has positions, so none of them is missing. -/
theorem State.PortsFit.wire_eq_bitAt {s : State} (hfit : s.PortsFit) (q : Port) {p : Nat} (h1 : 1 ≤ p)
    (h2 : p ≤ portWidth s.n q) : (s.port q)[p - 1]? = some (bitAt (s.port q) p) :=
  getElem?_eq_bitAt h1 ((hfit.1 q).symm ▸ h2)

theorem State.PortsFit.portValue_decSynO {s : State} (hfit : s.PortsFit) : s.portValue .decSynO = s.decSynO :=
  (wordValue_lowBits _ _).trans (Nat.mod_eq_of_lt hfit.2)

/-- Settles O45: a fitting port has a wire for each of its positions, and the syndrome fits the wires of its port. -/
theorem wiresCarryPositionsInOrder : Obligations.WiresCarryPositionsInOrder := by
  rintro s ⟨-, hfit, -⟩
  refine ⟨fun p h1 h2 => ?block, fun j h1 h2 => ?dataWord, fun j hj => ?syndromeBit, hfit.portValue_decSynO⟩
  case block =>
    exact ⟨hfit.wire_eq_bitAt .encCO h1 h2, hfit.wire_eq_bitAt .decCI h1 h2, hfit.wire_eq_bitAt .decCcO h1 h2⟩
  case dataWord => exact ⟨hfit.wire_eq_bitAt .encDI h1 h2, hfit.wire_eq_bitAt .decDO h1 h2⟩
  case syndromeBit => exact getElem?_lowBits _ hj

end Sys2Proof.Machine
end

section
/-! PROOFS of 30_encoding.md: what the two status outputs say about the syndrome and the corrected block. -/

namespace Sys2Proof.Machine

/-- R75, R93: DEC completes on every block of `n` Bits, whatever they are. -/
theorem exec_dec_fits {s : State} {c : Bits} (hn : ValidBlockSize s.n) (hc : c.length = s.n) :
    exec (.dec c) s = .next { s with decCI := c } :=
  presentOperand_fits hn hc

@[simp] theorem correct_zero (n : Nat) (c : Bits) : correct n c 0 = c := rfl

theorem correct_eq_flipAt {n syn : Nat} (c : Bits) (h1 : 1 ≤ syn) (h2 : syn ≤ n) :
    correct n c syn = flipAt c syn := if_pos ⟨h1, h2⟩

/-- A block and the block with one position inverted differ there and nowhere else. -/
theorem differences_flipAt {n i : Nat} {c : Bits} (hc : c.length = n) (h1 : 1 ≤ i) (h2 : i ≤ n) :
    differences n c (flipAt c i) = [i] := by
  have hdiff (p : Nat) : (bitAt c p != bitAt (flipAt c i) p) = (p == i) := by
    by_cases hp : p = i
    · subst hp
      simp [bitAt_flipAt_self h1 (hc ▸ h2)]
    · simp [bitAt_flipAt_ne hp, hp]
  have hcount : (positions n).count i = 1 :=
    List.count_eq_one_of_mem (nodup_positions n) (mem_positions.2 ⟨h1, h2⟩)
  calc differences n c (flipAt c i)
      = (positions n).filter (· == i) := by simp only [differences, hdiff]
    _ = [i] := by rw [List.filter_beq, hcount, List.replicate_one]

/-- Settles O24: `err` and `oor` compare the syndrome with 0 and with `n`, so `err` without `oor` is a syndrome that
CORR inverts, and no `err` is the syndrome 0, at which it inverts nothing. -/
theorem statusOutputsReportTheSyndrome : Obligations.StatusOutputsReportTheSyndrome := by
  intro s c hn hc
  have herr : errFlag (syndrome s.n c) = true ↔ syndrome s.n c ≠ 0 := errFlag_eq_true _
  have hoor : oorFlag s.n (syndrome s.n c) = true ↔ s.n < syndrome s.n c := oorFlag_eq_true _ _
  refine ⟨_, exec_dec_fits hn hc, herr, hoor, fun ho => ?oorImpliesErr, fun he ho => ?inverted, fun he => ?unchanged⟩
  case oorImpliesErr => exact herr.2 (Nat.ne_zero_of_lt (hoor.1 ho))
  case inverted =>
    have h1 : 1 ≤ syndrome s.n c := Nat.pos_of_ne_zero (herr.1 he)
    have h2 : syndrome s.n c ≤ s.n := Nat.not_lt.1 (hoor.not.1 (Bool.eq_false_iff.1 ho))
    rw [State.decCcO_eq, State.decSynO_eq, correct_eq_flipAt c h1 h2]
    exact differences_flipAt hc h1 h2
  case unchanged =>
    have h0 : syndrome s.n c = 0 := not_not.1 (herr.not.1 (Bool.eq_false_iff.1 he))
    rw [State.decCcO_eq, h0, correct_zero]

end Sys2Proof.Machine
end


section
/-! PROOFS of 40_encoder.md: where PLACE puts the data word, and the parity that PARGEN generates over it. -/

namespace Sys2Proof.Machine

/-- The search finds the least exponent that passes its test, when its candidates reach that far. -/
theorem leastExponent_eq {fuel m e j : Nat} (hm : m ≤ e) (he : e < m + fuel) (hpass : j + e < 2 ^ e)
    (hfail : ∀ i < e, 2 ^ i ≤ j + i) : leastExponent fuel m j = e := by
  induction fuel generalizing m with
  | zero => omega
  | succ fuel ih =>
    rw [leastExponent]
    rcases Nat.lt_or_eq_of_le hm with hlt | rfl
    · rw [if_neg (Nat.not_lt.2 (hfail m hlt))]
      exact ih hlt (by omega)
    · exact if_pos hpass

/-- The exponents that fail the test of R47 (b) reach down to 0: `2^i - i` does not fall as `i` grows. -/
theorem two_pow_le_add_of_le {j f i : Nat} (hf : 2 ^ f ≤ j + f) (hi : i ≤ f) : 2 ^ i ≤ j + i := by
  have hstep : f - i + 2 ^ i ≤ 2 ^ (f - i + i) :=
    (pow_right_strictMono₀ one_lt_two).add_le_nat (f - i) i
  rw [Nat.sub_add_cancel hi] at hstep
  omega

/-- A failing exponent stays below the bound `j + 2` on the search. -/
theorem le_of_two_pow_le_add {j f : Nat} (hf : 2 ^ f ≤ j + f) : f ≤ j := by
  cases f with
  | zero => exact Nat.zero_le j
  | succ e =>
    have he : e < 2 ^ e := Nat.lt_two_pow_self
    rw [pow_succ] at hf
    omega

/-- R47 (b): the exponent of `dpos j` is the one after an exponent that fails, once it passes. -/
theorem dpos_eq_add {j f : Nat} (hfail : 2 ^ f ≤ j + f) (hpass : j + (f + 1) < 2 ^ (f + 1)) :
    dpos j = j + (f + 1) := by
  have hf : f ≤ j := le_of_two_pow_le_add hfail
  rw [dpos, leastExponent_eq (Nat.zero_le _) (by omega) hpass
    fun i hi => two_pow_le_add_of_le hfail (Nat.le_of_lt_succ hi)]

/-- R47: a position that is no power of two is the last of its data positions, whose number `dataCount p` is its
place. -/
theorem dpos_dataCount {p : Nat} (h1 : 1 ≤ p) (hp : isPow2 p = false) : dpos (dataCount p) = p := by
  have hne : 2 ^ parityCount p ≠ p := fun h => by
    rw [← h, isPow2_two_pow] at hp
    cases hp
  have hlo : 2 ^ parityCount p ≤ p := two_pow_parityCount_le h1
  have hhi : p < 2 ^ (parityCount p + 1) := lt_two_pow_parityCount p
  have hsum : dataCount p + (parityCount p + 1) = p := dataCount_add h1
  rw [dpos_eq_add (f := parityCount p) (by omega) (hsum.symm ▸ hhi), hsum]

theorem positions_succ (n : Nat) : positions (n + 1) = positions n ++ [n + 1] := by
  rw [positions, List.range'_1_concat, Nat.add_comm 1 n, positions]

theorem dataPositions_succ_parity {n : Nat} (hp : isPow2 (n + 1) = true) : dataPositions (n + 1) = dataPositions n := by
  simp [dataPositions, positions_succ, hp]

theorem dataPositions_succ_data {n : Nat} (hp : isPow2 (n + 1) = false) :
    dataPositions (n + 1) = dataPositions n ++ [n + 1] := by
  simp [dataPositions, positions_succ, hp]

/-- R47: the data positions are `dpos 1, dpos 2, ...` in order. -/
theorem dataPositions_eq_map_dpos (n : Nat) :
    dataPositions n = (positions (dataPositions n).length).map dpos := by
  induction n with
  | zero => rfl
  | succ n ih =>
    by_cases hp : isPow2 (n + 1) = true
    · rw [dataPositions_succ_parity hp, ← ih]
    · have hp' : isPow2 (n + 1) = false := Bool.eq_false_iff.2 hp
      have hlen : (dataPositions n).length + 1 = dataCount (n + 1) := by
        rw [← length_dataPositions (Nat.succ_pos n), dataPositions_succ_data hp', List.length_append,
          List.length_singleton]
      rw [dataPositions_succ_data hp', List.length_append, List.length_singleton, positions_succ, List.map_append,
        ← ih, List.map_singleton, hlen, dpos_dataCount (Nat.succ_pos n) hp']

/-- Place `j` of an extracted data word is the Bit at position `dpos j`. -/
theorem bitAt_extract {n j : Nat} (hn : 1 ≤ n) (c : Bits) (h1 : 1 ≤ j) (h2 : j ≤ dataCount n) :
    bitAt (extract n c) j = bitAt c (dpos j) := by
  obtain ⟨i, rfl⟩ := Nat.exists_eq_add_of_le' h1
  rw [extract, dataPositions_eq_map_dpos, length_dataPositions hn]
  simp [positions, Nat.lt_of_succ_le h2, Nat.add_comm 1 i]

/-- A member of a repetition-free list of positions can be taken out of the exclusive-or over the list. -/
theorem xorOver_eq_xor_filter_ne {S : List Nat} {P : Nat} (hS : S.Nodup) (hP : P ∈ S) (s : Bits) :
    xorOver s S = Bool.xor (bitAt s P) (xorOver s (S.filter (· != P))) := by
  have hperm : S.Perm (P :: S.filter (· != P)) := hS.erase_eq_filter P ▸ List.perm_cons_erase hP
  exact xorAll_perm (hperm.map (bitAt s))

section FreshBlock

variable {n P : Nat} (hn : 1 ≤ n) (d : Bits) (hP : P ∈ parityPositions n)
include hn hP

theorem mem_cover_self : P ∈ cover P n := (parity_mem_cover hn hP hP).2 rfl

/-- PARGEN changes no position that a check covers beside its own. -/
theorem xorOver_encBlock_cover_ne :
    xorOver (encBlock n d) ((cover P n).filter (· != P)) =
      xorOver (placeData n d) ((cover P n).filter (· != P)) := by
  refine xorOver_congr fun i hi => ?_
  obtain ⟨hi, hne⟩ := List.mem_filter.1 hi
  have hdata : i ∉ parityPositions n := fun h => bne_iff_ne.1 hne ((parity_mem_cover hn hP h).1 hi)
  rw [bitAt_encBlock hn, if_neg hdata]

theorem bitAt_encBlock_parity : bitAt (encBlock n d) P = xorOver (placeData n d) (cover P n) := by
  rw [bitAt_encBlock hn, if_pos hP]

/-- R68: the placeholder 0 adds nothing, so a parity Bit is the exclusive-or of the other positions it covers. -/
theorem bitAt_encBlock_parity_eq_others :
    bitAt (encBlock n d) P = xorOver (encBlock n d) ((cover P n).filter (· != P)) := by
  rw [bitAt_encBlock_parity hn d hP, xorOver_eq_xor_filter_ne (nodup_cover P n) (mem_cover_self hn hP),
    bitAt_placeData_parity hn d hP, Bool.false_xor, xorOver_encBlock_cover_ne hn d hP]

/-- R68, even parity: the parity Bit cancels what the rest of its coverage set sums to. -/
theorem xorOver_encBlock_cover : xorOver (encBlock n d) (cover P n) = false := by
  rw [xorOver_eq_xor_filter_ne (nodup_cover P n) (mem_cover_self hn hP),
    ← bitAt_encBlock_parity_eq_others hn d hP, Bool.xor_self]

end FreshBlock

/-- R63, R71: ENC completes on every data word of `k` Bits. -/
theorem exec_enc_fits {s : State} {d : Bits} (hn : ValidBlockSize s.n) (hd : d.length = dataCount s.n) :
    exec (.enc d) s = .next { s with encDI := d } :=
  presentOperand_fits hn hd

/-- R63: the operand of ENC reaches the ports of its own unit only. -/
theorem port_withEncDI (s : State) (d : Bits) {p : Port} (hi : p ≠ .encDI) (ho : p ≠ .encCO) :
    ({ s with encDI := d } : State).port p = s.port p := by
  cases p with
  | encDI => exact absurd rfl hi
  | encCO => exact absurd rfl ho
  | decCI | decDO | decSynO | decCcO | decErrO | decOorO => rfl

/-- Settles O7: the code word is `encBlock n d`; EXTRACT reads the data word back before and after PARGEN, at the
positions `dpos j`, and each parity Bit cancels the rest of its coverage set. -/
theorem encPlacesDataAndGeneratesParity : Obligations.EncPlacesDataAndGeneratesParity := by
  intro n d hvalid hd
  have hn : 1 ≤ n := le_trans (by decide) hvalid
  refine ⟨encBlock n d, length_encBlock n d, fun j h1 h2 => ⟨?placed, ?kept⟩, fun P hP => ?parity, ?completes⟩
  case placed => rw [← bitAt_extract hn _ h1 h2, extract_placeData hn hd]
  case kept => rw [← bitAt_extract hn _ h1 h2, extract_encBlock hn hd]
  case parity =>
    exact ⟨bitAt_placeData_parity hn d hP, bitAt_encBlock_parity hn d hP, bitAt_encBlock_parity_eq_others hn d hP,
      xorOver_encBlock_cover hn d hP⟩
  case completes =>
    rintro s rfl
    exact ⟨_, exec_enc_fits hvalid hd, rfl, s.withEncDI_encCO d, fun _ => port_withEncDI s d⟩

end Sys2Proof.Machine
end

section
/-! PROOFS of 41_decoder.md: the syndrome of a flipped and of a fresh block, and what DEC makes of the two. -/

namespace Sys2Proof.Machine

/-- R14: a position of a block has no binary digit that the syndrome has no wire for. -/
theorem testBit_position_of_syndromeWidth_le {n i j : Nat} (hi : i ≤ n) (hj : syndromeWidth n ≤ j) :
    i.testBit j = false :=
  Nat.testBit_eq_false_of_lt <|
    calc i ≤ n := hi
      _ < 2 ^ syndromeWidth n := lt_two_pow_parityCount n
      _ ≤ 2 ^ j := Nat.pow_le_pow_right (by decide) hj

/-- R80 (b): a flip at position `i` toggles exactly the checks whose digit of `i` is 1. -/
theorem syndrome_flipAt {n i : Nat} {c : Bits} (hc : c.length = n) (h1 : 1 ≤ i) (h2 : i ≤ n) :
    syndrome n (flipAt c i) = syndrome n c ^^^ i := by
  refine Nat.eq_of_testBit_eq fun j => ?_
  rw [Nat.testBit_xor, testBit_syndrome, testBit_syndrome]
  by_cases hj : j < syndromeWidth n
  · have htoggle : xorOver (flipAt c i) (cover (2 ^ j) n) = Bool.xor (xorOver c (cover (2 ^ j) n)) (i.testBit j) := by
      simp [xorOver_flipAt (nodup_cover _ n) h1 (hc ▸ h2), mem_cover_two_pow, h1, h2]
    simp only [hj, decide_true, Bool.true_and, htoggle]
  · simp [hj, testBit_position_of_syndromeWidth_le h2 (Nat.not_lt.1 hj)]

/-- R87: the syndrome of a valid code word with one flip is the flipped position. -/
theorem ValidCodeWord.syndrome_flipAt {n i : Nat} {w : Bits} (hw : ValidCodeWord n w) (h1 : 1 ≤ i) (h2 : i ≤ n) :
    syndrome n (flipAt w i) = i := by
  obtain ⟨hlen, hsyn⟩ := hw
  rw [Machine.syndrome_flipAt hlen h1 h2, hsyn, Nat.zero_xor]

/-- R86: every check of a fresh block is even, so its syndrome is 0. -/
theorem validCodeWord_encBlock {n : Nat} (hn : 1 ≤ n) (d : Bits) : ValidCodeWord n (encBlock n d) := by
  refine ⟨length_encBlock n d, Nat.eq_of_testBit_eq fun j => ?_⟩
  rw [testBit_syndrome, Nat.zero_testBit]
  by_cases hj : j < syndromeWidth n
  · have hP : 2 ^ j ∈ parityPositions n := List.mem_map_of_mem (List.mem_range.2 hj)
    rw [xorOver_encBlock_cover hn d hP, Bool.and_false]
  · rw [decide_eq_false hj, Bool.false_and]

/-- DEC leaves a valid code word as it is and reports nothing. -/
theorem ValidCodeWord.decBlock_eq {n : Nat} {w : Bits} (hw : ValidCodeWord n w) :
    decBlock n w = { data := extract n w, syn := 0, cc := w, err := false, oor := false } := by
  simp [decBlock, hw.2, errFlag, oorFlag]

/-- R88: CORR inverts the flipped position once more, which restores the code word before EXTRACT reads it. -/
theorem ValidCodeWord.decBlock_flipAt {n i : Nat} {w : Bits} (hw : ValidCodeWord n w) (h1 : 1 ≤ i) (h2 : i ≤ n) :
    decBlock n (flipAt w i) = { data := (decBlock n w).data, syn := i, cc := w, err := true, oor := false } := by
  have hcorr : correct n (flipAt w i) i = w := by rw [correct_eq_flipAt _ h1 h2, flipAt_flipAt]
  have herr : errFlag i = true := (errFlag_eq_true i).2 (Nat.ne_of_gt h1)
  have hoor : oorFlag n i = false := decide_eq_false (Nat.not_lt.2 h2)
  rw [hw.decBlock_eq, decBlock, hw.syndrome_flipAt h1 h2, hcorr, herr, hoor]

/-- R89: a fresh block is a valid code word, and EXTRACT reads its data word out of it. -/
theorem decBlock_encBlock {n : Nat} (hn : 1 ≤ n) {d : Bits} (hd : d.length = dataCount n) :
    decBlock n (encBlock n d) = { data := d, syn := 0, cc := encBlock n d, err := false, oor := false } := by
  rw [(validCodeWord_encBlock hn d).decBlock_eq, extract_encBlock hn hd]

/-- The five output ports carry the five results of DEC on the block at `dec_c_i`. -/
theorem State.dec_outputs_of_decBlock {s : State} {r : DecResult} (h : decBlock s.n s.decCI = r) :
    s.decDO = r.data ∧ s.decSynO = r.syn ∧ s.decCcO = r.cc ∧ s.decErrO = r.err ∧ s.decOorO = r.oor := by
  subst h
  exact ⟨rfl, rfl, rfl, rfl, rfl⟩

/-- Settles O26: the five results are those of `decBlock` on a flipped code word. -/
theorem anySingleFlipIsCorrected : Obligations.AnySingleFlipIsCorrected := by
  intro s w i hn hw h1 h2
  have hlen : (flipAt w i).length = s.n := (length_flipAt w i).trans hw.1
  have houtputs := State.dec_outputs_of_decBlock (s := { s with decCI := flipAt w i }) (hw.decBlock_flipAt h1 h2)
  exact ⟨_, exec_dec_fits hn hlen, rfl, houtputs⟩

/-- Settles O25: the syndrome is one of the results of a corrected single flip. -/
theorem syndromeNamesTheFlippedPosition : Obligations.SyndromeNamesTheFlippedPosition := by
  intro s w i hn hw h1 h2
  obtain ⟨t, hexec, -, -, hsyn, -⟩ := anySingleFlipIsCorrected s w i hn hw h1 h2
  exact ⟨t, hexec, hsyn⟩

/-- Settles O27: the five results are those of `decBlock` on the block that ENC puts on its output. -/
theorem blockRoundTrip : Obligations.BlockRoundTrip := by
  intro s d hvalid hd
  have hn : 1 ≤ s.n := le_trans (by decide) hvalid
  have houtputs := State.dec_outputs_of_decBlock (s := { s with encDI := d, decCI := encBlock s.n d })
    (decBlock_encBlock hn hd)
  exact ⟨_, _, exec_enc_fits hvalid hd, exec_dec_fits hvalid (length_encBlock s.n d), rfl, houtputs⟩

end Sys2Proof.Machine
end

section
/-! PROOFS of 42_stream_ops.md: when the two stream operations fail, and what they answer when they complete. -/

namespace Sys2Proof.Machine

/-- R98: under a valid `n` there is no candidate to refuse, so ENCSTREAM completes on every Bitstream. -/
theorem encStream_valid {n : Nat} (hn : ValidBlockSize n) (B : Bits) :
    encStream n B = .next ((dataGroups n B).map (encBlock n)) :=
  withBlockSize_valid hn _

theorem encStream_invalid {n : Int} (hn : n < 3) (B : Bits) : encStream n B = .fault (.invalidConfiguration n) :=
  withBlockSize_invalid hn _

/-- R13: position 3 of a valid block holds a data Bit, so a data word is never empty. -/
theorem dataCount_pos {n : Nat} (hn : ValidBlockSize n) : 0 < dataCount n := by
  have hmem : 3 ∈ dataPositions n := mem_dataPositions.2 ⟨⟨by decide, hn⟩, by decide⟩
  exact length_dataPositions (le_trans (by decide) hn) ▸ List.length_pos_of_mem hmem

/-- R97: no Bit needs no group, since `ceil(0 / k)` rounds `k - 1` over `k` down. -/
theorem groupCount_zero {n : Nat} (hn : ValidBlockSize n) : groupCount n 0 = 0 := by
  have hk : 0 < dataCount n := dataCount_pos hn
  rw [groupCount, ceilDiv]
  exact Nat.div_eq_of_lt (by omega)

theorem dataGroups_nil {n : Nat} (hn : ValidBlockSize n) : dataGroups n [] = [] := by
  simp [dataGroups, groupCount_zero hn]

/-- R118: the format check in the words of the spec. -/
theorem isBlockLine_eq_true {n : Nat} {line : List Char} :
    isBlockLine n line = true ↔ line.length = n ∧ ∀ ch ∈ line, ch = '0' ∨ ch = '1' := by
  simp [isBlockLine]

/-- D11: a malformed candidate is the first one when all before it are blocks. -/
theorem firstMalformed_eq_some {n g : Nat} {Q : List (List Char)} (hg : g < Q.length)
    (hbad : isBlockLine n Q[g] = false) (hgood : ∀ (g' : Nat) (h : g' < g), isBlockLine n Q[g'] = true) :
    firstMalformed n Q = some (g + 1) := by
  have hfind : Q.findIdx? (fun line => !isBlockLine n line) = some g :=
    List.findIdx?_eq_some_iff_getElem.2 ⟨hg, by simp [hbad], fun g' h => by simp [hgood g' h]⟩
  rw [firstMalformed, hfind, Option.map_some]

theorem firstMalformed_eq_none {n : Nat} {Q : List (List Char)} (hgood : ∀ line ∈ Q, isBlockLine n line = true) :
    firstMalformed n Q = none := by
  have hfind : Q.findIdx? (fun line => !isBlockLine n line) = none :=
    List.findIdx?_eq_none_iff.2 fun line hline => by simp [hgood line hline]
  rw [firstMalformed, hfind, Option.map_none]

/-- D10: one malformed candidate ends the whole run. -/
theorem decRun_of_malformed {n g : Nat} {Q : List (List Char)} (hn : ValidBlockSize n)
    (h : firstMalformed n Q = some g) : decRun n Q = .fault (.invalidBlockFormat g) := by
  simp only [decRun, withBlockSize_valid hn, h, raise]

/-- R105: candidates that are all blocks are decoded one by one, in order. -/
theorem decRun_of_wellFormed {n : Nat} {Q : List (List Char)} (hn : ValidBlockSize n)
    (hgood : ∀ line ∈ Q, isBlockLine n line = true) :
    decRun n Q = .next (Q.map fun line => decBlock n (lineBits line)) := by
  rw [decRun, withBlockSize_valid hn, firstMalformed_eq_none hgood]

theorem decStream_of_malformed {n g : Nat} {Q : List (List Char)} (hn : ValidBlockSize n)
    (h : firstMalformed n Q = some g) : decStream n Q = .fault (.invalidBlockFormat g) := by
  rw [decStream, decRun_of_malformed hn h, andThen_fault]

theorem decStream_of_wellFormed {n : Nat} {Q : List (List Char)} (hn : ValidBlockSize n)
    (hgood : ∀ line ∈ Q, isBlockLine n line = true) :
    decStream n Q = .next (Q.map fun line => (decBlock n (lineBits line)).data).flatten := by
  rw [decStream, decRun_of_wellFormed hn hgood, andThen_next, List.flatMap_map, List.flatMap_def]

/-- R105: every block contributes `k` Bits, whatever its Bits are. -/
theorem length_decodedGroups {n : Nat} (hn : 1 ≤ n) (Q : List (List Char)) :
    (Q.map fun line => (decBlock n (lineBits line)).data).flatten.length = Q.length * dataCount n := by
  induction Q with
  | nil => simp
  | cons line Q ih =>
    rw [List.map_cons, List.flatten_cons, List.length_append, ih, decBlock_data, length_extract hn, List.length_cons,
      Nat.succ_mul, Nat.add_comm]

/-- Settles O52: the reported index is where the search for a malformed candidate stops, and when it finds none the
decoded groups are joined. -/
theorem decStreamChecksAllThenDecodes : Obligations.DecStreamChecksAllThenDecodes := by
  intro n Q hn
  refine ⟨fun g hg hbad hgood => ?malformed, fun hgood => ?wellFormed⟩
  case malformed =>
    have hline : isBlockLine n Q[g] = false :=
      Bool.eq_false_iff.2 (isBlockLine_eq_true.not.2 (hbad _ (List.getElem?_eq_getElem hg)))
    have hbefore (g' : Nat) (h : g' < g) : isBlockLine n Q[g'] = true :=
      isBlockLine_eq_true.2 (hgood g' _ h (List.getElem?_eq_getElem (h.trans hg)))
    exact decStream_of_malformed hn (firstMalformed_eq_some hg hline hbefore)
  case wellFormed =>
    have hlines : ∀ line ∈ Q, isBlockLine n line = true := fun line hline => isBlockLine_eq_true.2 (hgood line hline)
    exact ⟨_, decStream_of_wellFormed hn hlines, length_decodedGroups (le_trans (by decide) hn) Q, rfl⟩

/-- Settles O51: the empty Bitstream has no group, no candidate is malformed among none, and only the configuration
check of ENCSTREAM can fail. -/
theorem emptyStreamsAreEmpty : Obligations.EmptyStreamsAreEmpty := by
  refine ⟨fun n hn => ⟨?noGroup, ?noBlock, fun B => ⟨_, encStream_valid hn B⟩⟩, fun n B hlt => encStream_invalid hlt B⟩
  case noGroup => rw [encStream_valid hn, dataGroups_nil hn, List.map_nil]
  case noBlock =>
    rw [decStream_of_wellFormed hn fun _ hline => absurd hline List.not_mem_nil, List.map_nil, List.flatten_nil]

end Sys2Proof.Machine
end

section
/-! PROOFS of 60_exceptions.md: which errors an instance and the two stream operations can end with. -/

namespace Sys2Proof.Machine

theorem buildInstance_valid {n : Nat} (hn : ValidBlockSize n) :
    buildInstance n = .next (instanceState n [] (zeros (dataCount n)) (zeros n)) :=
  withBlockSize_valid hn _

theorem buildInstance_invalid {n : Int} (hn : n < 3) : buildInstance n = .fault (.invalidConfiguration n) :=
  withBlockSize_invalid hn _

theorem decStream_invalid {n : Int} (hn : n < 3) (Q : List (List Char)) :
    decStream n Q = .fault (.invalidConfiguration n) := by
  rw [decStream, decRun, withBlockSize_invalid hn, andThen_fault]

theorem isBlockLine_of_firstMalformed_eq_none {n : Nat} {Q : List (List Char)} (h : firstMalformed n Q = none) :
    ∀ line ∈ Q, isBlockLine n line = true := by
  simpa [firstMalformed] using h

/-- R117, R118: under a valid `n` the format check is all that DECSTREAM can fail, so its only error is
`InvalidBlockFormat`. -/
theorem decStream_valid_ne_invalidConfiguration {n : Nat} (hn : ValidBlockSize n) (Q : List (List Char)) (m : Int) :
    decStream n Q ≠ .fault (.invalidConfiguration m) := by
  cases hfirst : firstMalformed n Q with
  | some g => simp [decStream_of_malformed hn hfirst]
  | none => simp [decStream_of_wellFormed hn (isBlockLine_of_firstMalformed_eq_none hfirst)]

/-- Settles O32: building and both stream operations begin with the configuration check, and past it only the format
check of DECSTREAM is left to fail. -/
theorem invalidConfigurationExactlyBelowThree : Obligations.InvalidConfigurationExactlyBelowThree := by
  refine ⟨fun n hlt => ?belowThree, fun n hn => ?fromThree⟩
  case belowThree => exact ⟨buildInstance_invalid hlt, encStream_invalid hlt, decStream_invalid hlt⟩
  case fromThree =>
    exact ⟨⟨_, buildInstance_valid hn, rfl⟩, fun B => ⟨_, encStream_valid hn B⟩,
      decStream_valid_ne_invalidConfiguration hn⟩

end Sys2Proof.Machine
end

section
/-! PROOFS of 70_reset_and_hazards.md: the block size along a run. -/

namespace Sys2Proof.Machine

/-- A run of `k + 1` steps completes only through a first step that completes. -/
theorem run_succ_eq_next {M : Host.Core} {k : Nat} {s t : M.State} (h : Host.Core.run M (k + 1) s = .next t) :
    ∃ u : M.State, M.step s = .next u ∧ Host.Core.run M k u = .next t := by
  rw [Host.Core.run] at h
  cases hstep : M.step s with
  | next u => exact ⟨u, rfl, by simpa only [hstep] using h⟩
  | fault r => simp [hstep] at h
  | refused r => simp [hstep] at h

/-- Settles O39, by induction on the number of steps: no step writes the block size. -/
theorem blockSizeNeverChanges : Obligations.BlockSizeNeverChanges := by
  intro k
  induction k with
  | zero =>
    intro s t h
    cases h
    rfl
  | succ k ih =>
    intro s t h
    obtain ⟨u, hstep, hrun⟩ := run_succ_eq_next h
    exact (ih u t hrun).trans (step_n hstep)

end Sys2Proof.Machine
end

section
/-! PROOFS of 41_decoder.md section 3: a block is known by its syndrome and its data Bits, and CORR moves every block
with a syndrome in range to a valid code word. -/

namespace Sys2Proof.Machine

theorem one_le_of_valid {n : Nat} (hn : ValidBlockSize n) : 1 ≤ n := le_trans (by decide) hn

theorem two_pow_mem_parityPositions {n j : Nat} : 2 ^ j ∈ parityPositions n ↔ j < syndromeWidth n := by
  constructor
  · intro h
    obtain ⟨i, hi, heq⟩ := List.mem_map.1 h
    obtain rfl : i = j := Nat.pow_right_injective (le_refl 2) heq
    exact List.mem_range.1 hi
  · exact fun h => List.mem_map_of_mem (List.mem_range.2 h)

/-- Every position of a block is a parity position or a data position. -/
theorem mem_parityPositions_or_dataPositions {n p : Nat} (h1 : 1 ≤ p) (h2 : p ≤ n) :
    p ∈ parityPositions n ∨ p ∈ dataPositions n := by
  rw [mem_parityPositions (h1.trans h2), mem_dataPositions]
  cases isPow2 p <;> simp [h1, h2]

/-- EXTRACT gives the same data word exactly for blocks that agree on the data positions. -/
theorem extract_eq_iff {n : Nat} {a b : Bits} :
    extract n a = extract n b ↔ ∀ p ∈ dataPositions n, bitAt a p = bitAt b p := List.map_inj_left

/-- The positions beside its own that a check covers are data positions. -/
theorem mem_dataPositions_of_mem_cover {n P i : Nat} (hn : 1 ≤ n) (hP : P ∈ parityPositions n)
    (hi : i ∈ (cover P n).filter (· != P)) : i ∈ dataPositions n := by
  obtain ⟨hcov, hne⟩ := List.mem_filter.1 hi
  have hdata : isPow2 i = false := (cover_filter_parity hn hP hcov).resolve_left (bne_iff_ne.1 hne)
  exact mem_dataPositions.2 ⟨(mem_cover.1 hcov).1, hdata⟩

/-- Blocks with the same syndrome have the same sum over each coverage set of a parity position. -/
theorem xorOver_cover_eq_of_syndrome_eq {n : Nat} {a b : Bits} (hsyn : syndrome n a = syndrome n b) {P : Nat}
    (hP : P ∈ parityPositions n) : xorOver a (cover P n) = xorOver b (cover P n) := by
  obtain ⟨j, hj, rfl⟩ := List.mem_map.1 hP
  have hbit : (syndrome n a).testBit j = (syndrome n b).testBit j := by rw [hsyn]
  have hj' : j < syndromeWidth n := List.mem_range.1 hj
  simpa [testBit_syndrome, hj'] using hbit

/-- The data Bits are free and each check then fixes the one parity Bit it covers, so syndrome and data word together
determine a block. -/
theorem eq_of_syndrome_eq_of_extract_eq {n : Nat} {a b : Bits} (hn : 1 ≤ n) (ha : a.length = n) (hb : b.length = n)
    (hsyn : syndrome n a = syndrome n b) (hdata : extract n a = extract n b) : a = b := by
  have hagree := extract_eq_iff.1 hdata
  refine bits_ext (ha.trans hb.symm) fun p h1 h2 => ?_
  rcases mem_parityPositions_or_dataPositions h1 (ha ▸ h2) with hP | hp
  · have hsum := xorOver_cover_eq_of_syndrome_eq hsyn hP
    have hrest : xorOver a ((cover p n).filter (· != p)) = xorOver b ((cover p n).filter (· != p)) :=
      xorOver_congr fun i hi => hagree i (mem_dataPositions_of_mem_cover hn hP hi)
    rw [xorOver_eq_xor_filter_ne (nodup_cover p n) (mem_cover_self hn hP) a,
      xorOver_eq_xor_filter_ne (nodup_cover p n) (mem_cover_self hn hP) b, hrest] at hsum
    exact Bool.xor_left_inj.1 hsum
  · exact hagree p hp

/-- R86: a valid code word is the code word of the data word that EXTRACT reads out of it. -/
theorem ValidCodeWord.encBlock_extract {n : Nat} {w : Bits} (hn : 1 ≤ n) (hw : ValidCodeWord n w) :
    encBlock n (extract n w) = w := by
  obtain ⟨hlen, hsyn⟩ := hw
  obtain ⟨hlen', hsyn'⟩ := validCodeWord_encBlock hn (extract n w)
  exact eq_of_syndrome_eq_of_extract_eq hn hlen' hlen (hsyn'.trans hsyn.symm)
    (extract_encBlock hn (length_extract hn w))

/-- CORR changes nothing at a syndrome above `n` (D7). -/
theorem correct_of_lt {n syn : Nat} (c : Bits) (h : n < syn) : correct n c syn = c :=
  if_neg fun hs => Nat.not_lt.2 hs.2 h

/-- R91: with a syndrome up to `n` the corrected block is a valid code word. -/
theorem validCodeWord_correct {n : Nat} {c : Bits} (hc : c.length = n) (hs : syndrome n c ≤ n) :
    ValidCodeWord n (correct n c (syndrome n c)) := by
  refine ⟨(length_correct n c _).trans hc, ?_⟩
  rcases Nat.eq_zero_or_pos (syndrome n c) with h0 | h1
  · rw [h0, correct_zero, h0]
  · rw [correct_eq_flipAt c h1 hs, syndrome_flipAt hc h1 hs, Nat.xor_self]

/-- R91: the corrected block is a valid code word exactly when the syndrome names a position or is 0. -/
theorem validCodeWord_correct_iff {n : Nat} {c : Bits} (hc : c.length = n) :
    ValidCodeWord n (correct n c (syndrome n c)) ↔ syndrome n c ≤ n := by
  refine ⟨fun h => Nat.not_lt.1 fun hlt => ?_, validCodeWord_correct hc⟩
  rw [correct_of_lt c hlt] at h
  exact Nat.not_lt_zero n (h.2 ▸ hlt)

end Sys2Proof.Machine
end

section
/-! PROOFS of 10_state.md: the invariant holds wherever both operands fit, which every step keeps. -/

namespace Sys2Proof.Machine

theorem oorFlag_eq_false {n syn : Nat} : oorFlag n syn = false ↔ syn ≤ n := by simp [oorFlag]

@[simp] theorem length_lowBits (len w : Nat) : (lowBits len w).length = len := by simp [lowBits]

/-- R54: the outputs have their widths on operands that have theirs. -/
theorem State.portsFit_of_operands_fit {s : State} (hn : ValidBlockSize s.n) (hd : s.encDI.length = dataCount s.n)
    (hc : s.decCI.length = s.n) : s.PortsFit := by
  refine ⟨fun p => ?_, syndrome_lt s.n s.decCI⟩
  cases p with
  | encDI => exact hd
  | encCO => exact length_encBlock s.n s.encDI
  | decCI => exact hc
  | decDO => exact length_extract (one_le_of_valid hn) _
  | decSynO => exact length_lowBits _ _
  | decCcO => exact (length_correct _ _ _).trans hc
  | decErrO | decOorO => rfl

/-- R86, R91, R85: the outputs agree whatever the operand of ENC is, and for every block of `n` Bits. -/
theorem State.outputsAgree_of_block_fits {s : State} (hn : ValidBlockSize s.n) (hc : s.decCI.length = s.n) :
    s.OutputsAgree := by
  have h1 : 1 ≤ s.n := one_le_of_valid hn
  refine ⟨validCodeWord_encBlock h1 s.encDI, ?inRange, fun ho => ?reencoded, fun ho => ?oorImpliesErr⟩
  case inRange => exact oorFlag_eq_false.trans (validCodeWord_correct_iff hc).symm
  case reencoded => exact (validCodeWord_correct hc (oorFlag_eq_false.1 ho)).encBlock_extract h1
  case oorImpliesErr => exact (errFlag_eq_true _).2 (Nat.ne_zero_of_lt ((oorFlag_eq_true _ _).1 ho))

theorem State.inv_iff {s : State} :
    s.Inv ↔ ValidBlockSize s.n ∧ s.encDI.length = dataCount s.n ∧ s.decCI.length = s.n := by
  constructor
  · rintro ⟨hn, ⟨hwidth, -⟩, -⟩
    exact ⟨hn, hwidth .encDI, hwidth .decCI⟩
  · rintro ⟨hn, hd, hc⟩
    exact ⟨hn, State.portsFit_of_operands_fit hn hd hc, State.outputsAgree_of_block_fits hn hc⟩

/-- An operation that completes replaces one operand by one that fits too. -/
theorem exec_keeps_inv {i : Instr} {s t : State} (hs : s.Inv) (h : exec i s = .next t) : t.Inv := by
  obtain ⟨hn, hd, hc⟩ := State.inv_iff.1 hs
  obtain ⟨-, hwf, ⟨d, rfl, rfl⟩ | ⟨c, rfl, rfl⟩⟩ := exec_eq_next h
  · exact State.inv_iff.2 ⟨hn, beq_iff_eq.1 hwf, hc⟩
  · exact State.inv_iff.2 ⟨hn, hd, beq_iff_eq.1 hwf⟩

/-- Settles O37: a step that completes changes nothing or runs one operation, on a state that differs in the list of
issued words only. -/
theorem stepKeepsInv : Obligations.StepKeepsInv := by
  intro s t hs h
  obtain ⟨-, ⟨-, rfl⟩ | ⟨w, rest, i, -, -, hexec⟩⟩ := step_eq_next h
  · exact hs
  · have hs' : ({ s with issue := rest } : State).Inv := State.inv_iff.2 (State.inv_iff.1 hs)
    exact exec_keeps_inv hs' hexec

/-- Settles O36: a built state has operands of zeros, which fit. -/
theorem everyBuiltInstanceMeetsInv : Obligations.EveryBuiltInstanceMeetsInv := by
  intro n hn
  exact ⟨_, buildInstance_valid hn, rfl, State.inv_iff.2 ⟨hn, length_zeros _, length_zeros _⟩⟩

/-- Settles O35: the operands of reset are the 4 and 8 zeros that building size 8 gives. -/
theorem resetIsABuiltInstanceInInv : Obligations.ResetIsABuiltInstanceInInv :=
  ⟨buildInstance_valid (n := 8) (by decide), State.inv_iff.2 ⟨by decide, rfl, rfl⟩⟩

end Sys2Proof.Machine
end

section
/-! PROOFS of 30_encoding.md section 2: operation words as Bits and as numbers. -/

namespace Sys2Proof

open Machine

theorem ofTag_tag_operand (i : Instr) : ofTag i.tag i.operand = i := by cases i <;> rfl

@[simp] theorem tag_ofTag (op : Bit) (operand : Bits) : (ofTag op operand).tag = op := by cases op <;> rfl

@[simp] theorem operand_ofTag (op : Bit) (operand : Bits) : (ofTag op operand).operand = operand := by cases op <;> rfl

/-- The tag alone selects the port. -/
theorem inputPort_ofTag (op : Bit) (operand : Bits) : (ofTag op operand).inputPort = (ofTag op []).inputPort := by
  cases op <;> rfl

theorem wf_iff {n : Nat} {i : Instr} : i.wf n = true ↔ i.operand.length = portWidth n i.inputPort := beq_iff_eq

theorem decode_cons_of_wf {n : Nat} {op : Bit} {operand : Bits} (h : (ofTag op operand).wf n = true) :
    decode n (op :: operand) = .ok (ofTag op operand) := if_pos h

theorem decode_encode {n : Nat} {i : Instr} (h : i.wf n = true) : decode n (encode i) = .ok i := by
  have hsame := ofTag_tag_operand i
  rw [encode, decode_cons_of_wf (hsame.symm ▸ h), hsame]

/-- A word is the word of the operation it decodes to. -/
theorem encode_of_decode {n : Nat} {w : Bits} {i : Instr} (h : decode n w = .ok i) : encode i = w := by
  obtain ⟨-, op, operand, rfl, rfl⟩ := decode_eq_ok h
  rw [encode, tag_ofTag, operand_ofTag]

/-- R61: a word whose operand does not fit the port of its tag is no operation. -/
theorem decode_encode_misfit {n : Nat} {i : Instr} (h : i.operand.length ≠ portWidth n i.inputPort) :
    decode n (encode i) = .error (.operandLength i.operand.length (portWidth n i.inputPort)) := by
  have hwf : ¬ i.wf n = true := wf_iff.not.2 h
  simp [encode, decode, ofTag_tag_operand, hwf]

/-- The word of a well-formed operation has the length that its tag selects. -/
theorem length_encode {n : Nat} {i : Instr} (h : i.wf n = true) : (encode i).length = wordLength n i.tag := by
  cases i with
  | enc d => exact ((Laws.WordLength.enc d).2 n).2 h
  | dec c => exact ((Laws.WordLength.dec c).2 n).2 h

theorem testBit_zero_wordValue (b : Bit) (bs : Bits) : (wordValue (b :: bs)).testBit 0 = b := by
  cases b <;> simp [wordValue]

theorem wordValue_div_two (b : Bit) (bs : Bits) : wordValue (b :: bs) / 2 = wordValue bs := by
  cases b
  · simp [wordValue]
  · simp only [wordValue, Bool.toNat_true]
    omega

theorem wordValue_lt (bs : Bits) : wordValue bs < 2 ^ bs.length := by
  induction bs with
  | nil => exact Nat.one_pos
  | cons b bs ih =>
    have hb : b.toNat ≤ 1 := Bool.toNat_le b
    rw [wordValue, List.length_cons, pow_succ]
    omega

/-- The digits of the number that a word stands for are the word. -/
theorem lowBits_wordValue (bs : Bits) : lowBits bs.length (wordValue bs) = bs := by
  induction bs with
  | nil => rfl
  | cons b bs ih => rw [List.length_cons, lowBits_succ, testBit_zero_wordValue, wordValue_div_two, ih]

theorem decodeWord_encodeWord {n : Nat} {i : Instr} (h : i.wf n = true) : decodeWord n (encodeWord i) = .ok i := by
  have htag : (encodeWord i).testBit 0 = i.tag := testBit_zero_wordValue _ _
  rw [decodeWord, htag, ← length_encode h, encodeWord, lowBits_wordValue, decode_encode h]

/-- Settles O42: a word keeps the tag and the operand as they are, and as a number it has one digit per Bit. -/
theorem decodeEncodeAgree : Obligations.DecodeEncodeAgree := by
  intro n _
  refine ⟨fun i hi => ⟨decode_encode hi, decodeWord_encodeWord hi, ?bound⟩,
    fun w i h => ⟨(decode_eq_ok h).1, encode_of_decode h⟩, fun i i' hi hi' heq => ?injective⟩
  case bound => exact length_encode hi ▸ wordValue_lt (encode i)
  case injective =>
    have hok : (.ok i : Except DecodeError Instr) = .ok i' := by
      rw [← decodeWord_encodeWord hi, heq, decodeWord_encodeWord hi']
    exact Except.ok.inj hok

/-- Settles O43: three operation words and two table words, each a closed number that the decoder reads. -/
theorem writtenOutWordsDecode : Obligations.WrittenOutWordsDecode := by
  exact ⟨by decide, by decide, by decide, by decide, by decide⟩

end Sys2Proof
end

section
/-! PROOFS of 30_encoding.md section 4: the next issued word decides what a step does. -/

namespace Sys2Proof.Machine

/-- R41, R152: a step reads the next issued word and runs it. -/
theorem step_of_issue {s : State} {w : Bits} {rest : List Bits} (hn : ValidBlockSize s.n) (hq : s.issue = w :: rest) :
    (∀ i : Instr, decode s.n w = .ok i → step s = exec i { s with issue := rest }) ∧
      ∀ e : DecodeError, decode s.n w = .error e → step s = .refused (.notAnOperationWord e) := by
  refine ⟨fun i h => ?runs, fun e h => ?refused⟩
  case runs => simp [step, hn, fetch, hq, h]
  case refused => simp [step, hn, fetch, hq, h]

theorem step_of_issue_nil {s : State} (hn : ValidBlockSize s.n) (hq : s.issue = []) : step s = .next s := by
  simp [step, hn, fetch, hq]

theorem presentOperand_misfit {p : Port} {x : Bits} {s t : State} (hn : ValidBlockSize s.n)
    (hx : x.length ≠ portWidth s.n p) :
    presentOperand p x s t = .refused (.operandNotPortWidth p x.length (portWidth s.n p)) := by
  simp [presentOperand, hn, hx]

/-- An operand that does not fit its port is refused there. -/
theorem exec_misfit {s : State} {i : Instr} (hn : ValidBlockSize s.n)
    (h : i.operand.length ≠ portWidth s.n i.inputPort) :
    exec i s = .refused (.operandNotPortWidth i.inputPort i.operand.length (portWidth s.n i.inputPort)) := by
  cases i with
  | enc d => exact presentOperand_misfit hn h
  | dec c => exact presentOperand_misfit hn h

theorem presentOperand_invalid {s : State} (hn : (s.n : Int) < 3) (p : Port) (x : Bits) (t : State) :
    presentOperand p x s t = .fault (.invalidConfiguration s.n) :=
  withBlockSize_invalid hn _

/-- R117: there is no block with `n < 3` to present an operand to. -/
theorem exec_invalid {s : State} (hn : (s.n : Int) < 3) (i : Instr) :
    exec i s = .fault (.invalidConfiguration s.n) := by
  cases i with
  | enc d => exact presentOperand_invalid hn _ _ _
  | dec c => exact presentOperand_invalid hn _ _ _

/-- Settles O38: the three clauses on a word are the cases of the decoder. -/
theorem stepRunsTheIssuedOperation : Obligations.StepRunsTheIssuedOperation := by
  refine ⟨fun s w rest hn hq => ?issued, fun s hn hq => step_of_issue_nil hn hq⟩
  case issued =>
    obtain ⟨hrun, hrefuse⟩ := step_of_issue hn hq
    exact ⟨hrun, fun i hi hw => hrun i (hw ▸ decode_encode hi), hrefuse⟩

/-- Settles O34: the length is compared with the port when the operand is presented and when the word is read. -/
theorem misfittingOperandIsRefused : Obligations.MisfittingOperandIsRefused := by
  intro s i hn h
  refine ⟨exec_misfit hn h, fun rest => ?word⟩
  case word =>
    have hstep := step_of_issue (s := { s with issue := encode i :: rest }) (w := encode i) (rest := rest) hn rfl
    exact hstep.2 _ (decode_encode_misfit h)

/-- Settles O33: presenting an operand and a step both begin with the configuration check. -/
theorem noOperationRunsBelowThree : Obligations.NoOperationRunsBelowThree := by
  intro s hn
  have hn' : (s.n : Int) < 3 := by exact_mod_cast hn
  exact ⟨exec_invalid hn', withBlockSize_invalid hn' _⟩

/-- Log 8: the operation of a table word, its tag the lowest Bit and its operand the Bits above, as many as the port
of the tag is wide. -/
def tableOp (n nbits w : Nat) : Instr :=
  let v := w % 2 ^ nbits
  ofTag (v.testBit 0) (lowBits (portWidth n (ofTag (v.testBit 0) []).inputPort) (v / 2))

theorem tag_tableOp (n nbits w : Nat) : (tableOp n nbits w).tag = (w % 2 ^ nbits).testBit 0 := tag_ofTag _ _

theorem tableOp_wf (n nbits w : Nat) : (tableOp n nbits w).wf n = true := by
  rw [wf_iff, tableOp, operand_ofTag, length_lowBits, inputPort_ofTag _ (lowBits _ _)]

theorem tableWordBits_eq_encode (n nbits w : Nat) : tableWordBits n nbits w = encode (tableOp n nbits w) := by
  rw [tableWordBits, wordLength, Nat.add_comm, lowBits_succ, encode, tableOp, tag_ofTag, operand_ofTag]

/-- Settles O44: a table word is the word of `tableOp`, and taking it off the list gives the state as it was. -/
theorem tableWordRunsNext : Obligations.TableWordRunsNext := by
  intro s nbits w hn
  have hdecode : decode s.n (tableWordBits s.n nbits w) = .ok (tableOp s.n nbits w) := by
    rw [tableWordBits_eq_encode, decode_encode (tableOp_wf s.n nbits w)]
  have hstep := (step_of_issue (s := s.withFetchWord nbits w) hn (s.withFetchWord_issue nbits w)).1 _ hdecode
  exact ⟨_, tableOp_wf s.n nbits w, tag_tableOp s.n nbits w, hdecode, hstep⟩

end Sys2Proof.Machine
end

section
/-! PROOFS of 20_memory.md sections 4 and 5: operations issued one after the other. -/

namespace Sys2Proof.Machine

/-- The state an operation completes in: its operand stands on the port of its unit. -/
def present (s : State) : Instr → State
  | .enc d => { s with encDI := d }
  | .dec c => { s with decCI := c }

@[simp] theorem present_n (s : State) (i : Instr) : (present s i).n = s.n := by cases i <;> rfl
@[simp] theorem present_issue (s : State) (i : Instr) : (present s i).issue = s.issue := by cases i <;> rfl
@[simp] theorem present_present_self (s : State) (i : Instr) : present (present s i) i = present s i := by
  cases i <;> rfl

theorem exec_of_wf {s : State} {i : Instr} (hn : ValidBlockSize s.n) (hi : i.wf s.n = true) :
    exec i s = .next (present s i) := by
  cases i with
  | enc d => exact exec_enc_fits hn (wf_iff.1 hi)
  | dec c => exact exec_dec_fits hn (wf_iff.1 hi)

/-- R22: the ports of a unit show its operand and what it computes from it and `n`, nothing of the state before. -/
theorem port_present {s s' : State} (hn : s.n = s'.n) (i : Instr) {p : Port} (hp : p ∈ unitPorts i) :
    (present s i).port p = (present s' i).port p := by
  cases i with
  | enc d =>
    have hd : (present s (.enc d)).encCO = (present s' (.enc d)).encCO := by simp [present, hn]
    rcases List.mem_pair.1 hp with rfl | rfl
    · rfl
    · exact hd
  | dec c =>
    have hr : (present s (.dec c)).decResult = (present s' (.dec c)).decResult := by
      simp only [State.decResult, present, hn]
    have hn' : (present s (.dec c)).n = (present s' (.dec c)).n := hn
    cases p with
    | encDI | encCO => simp [unitPorts] at hp
    | decCI => rfl
    | decDO | decSynO | decCcO | decErrO | decOorO =>
      simp only [State.port, State.decDO, State.decSynO, State.decCcO, State.decErrO, State.decOorO, hr, hn']

theorem foldl_present_n (ops : List Instr) (s : State) : (ops.foldl present s).n = s.n := by
  induction ops generalizing s with
  | nil => rfl
  | cons i ops ih => exact (ih _).trans (present_n s i)

theorem foldl_present_issue (ops : List Instr) (s : State) : (ops.foldl present s).issue = s.issue := by
  induction ops generalizing s with
  | nil => rfl
  | cons i ops ih => exact (ih _).trans (present_issue s i)

theorem run_succ_of_step {M : Host.Core} {k : Nat} {s u : M.State} (h : M.step s = .next u) :
    Host.Core.run M (k + 1) s = Host.Core.run M k u := by
  rw [Host.Core.run, h]

/-- As many steps as well-formed operations are issued present their operands, in order. -/
theorem run_issued (ops : List Instr) {s : State} {rest : List Bits} (hn : ValidBlockSize s.n)
    (hops : ∀ i ∈ ops, i.wf s.n = true) (hq : s.issue = ops.map encode ++ rest) :
    Host.Core.run Sys2Proof.core ops.length s = .next (ops.foldl present { s with issue := rest }) := by
  induction ops generalizing s with
  | nil =>
    obtain rfl : s.issue = rest := hq
    rfl
  | cons i ops ih =>
    obtain ⟨hi, hops⟩ := List.forall_mem_cons.1 hops
    have hstep : Sys2Proof.core.step s = .next (present { s with issue := ops.map encode ++ rest } i) :=
      ((step_of_issue hn hq).1 i (decode_encode hi)).trans (exec_of_wf (s := { s with issue := _ }) hn hi)
    have hcomm : ({ present { s with issue := ops.map encode ++ rest } i with issue := rest } : State) =
        present { s with issue := rest } i := by cases i <;> rfl
    have hrun := ih (s := present { s with issue := ops.map encode ++ rest } i) (by simpa using hn)
      (by simpa using hops) (by simp)
    exact (run_succ_of_step hstep).trans (hrun.trans (congrArg (Host.Outcome.next <| ops.foldl present ·) hcomm))

/-- After the last of some issued operations its operand stands on the port of its unit. -/
theorem run_issued_last (earlier : List Instr) (i : Instr) {s : State} {rest : List Bits} (hn : ValidBlockSize s.n)
    (hops : ∀ e ∈ earlier, e.wf s.n = true) (hi : i.wf s.n = true)
    (hq : s.issue = (earlier ++ [i]).map encode ++ rest) :
    ∃ u : State, u.n = s.n ∧ u.issue = rest ∧
      Host.Core.run Sys2Proof.core (earlier.length + 1) s = .next (present u i) := by
  refine ⟨earlier.foldl present { s with issue := rest }, foldl_present_n _ _, foldl_present_issue _ _, ?runs⟩
  have hall : ∀ e ∈ earlier ++ [i], e.wf s.n = true :=
    List.forall_mem_append.2 ⟨hops, List.forall_mem_singleton.2 hi⟩
  have hlen : (earlier ++ [i]).length = earlier.length + 1 := List.length_append
  exact hlen ▸ (run_issued (earlier ++ [i]) hn hall hq).trans (congrArg _ (List.foldl_concat ..))

/-- Settles O40: the run ends with the operand of `i` presented, and the ports of its unit show no more than that. -/
theorem resultsDoNotDependOnEarlierOperations : Obligations.ResultsDoNotDependOnEarlierOperations := by
  intro s s' earlier i rest hn hs' hops hi hq
  obtain ⟨u, hu, hissue, hrun⟩ := run_issued_last earlier i hn hops hi hq
  have hexec : exec i s' = .next (present s' i) := exec_of_wf (hs' ▸ hn) (hs' ▸ hi)
  exact ⟨_, _, hrun, hexec, (present_issue u i).trans hissue, fun _ hp => port_present (hu.trans hs'.symm) i hp⟩

/-- Settles O41: each operation writes the port of its own unit, with the same operand every time. -/
theorem operationsCommuteAndRepeat : Obligations.OperationsCommuteAndRepeat := by
  intro s d c hn hd hc
  refine ⟨?commute, fun i hi => ?repeats⟩
  case commute =>
    exact ⟨_, _, { s with encDI := d, decCI := c }, exec_enc_fits hn hd, exec_dec_fits hn hc, exec_dec_fits hn hc,
      exec_enc_fits hn hd⟩
  case repeats =>
    refine ⟨present s i, exec_of_wf hn hi, ?_⟩
    rw [exec_of_wf (by simpa using hn) (by simpa using hi), present_present_self]

end Sys2Proof.Machine
end

section
/-! PROOFS of 00_scope.md section 3: how many parity and data positions a block has, and which they are. -/

namespace Sys2Proof.Machine

/-- R11: one more position is one more data position or one more parity position. -/
theorem dataCount_succ {n : Nat} (hn : 1 ≤ n) :
    dataCount (n + 1) = dataCount n ∨ dataCount (n + 1) = dataCount n + 1 := by
  rw [← length_dataPositions hn, ← length_dataPositions (Nat.succ_pos n)]
  by_cases hp : isPow2 (n + 1) = true
  · exact .inl (by rw [dataPositions_succ_parity hp])
  · exact .inr (by rw [dataPositions_succ_data (Bool.eq_false_iff.2 hp), List.length_append, List.length_singleton])

/-- R11: the sizes 1 and 2 have no data position. -/
theorem dataCount_pos_iff {n : Nat} : 0 < dataCount n ↔ ValidBlockSize n := by
  refine ⟨fun h => ?_, dataCount_pos⟩
  by_contra hn
  have hn : n < 3 := Nat.not_le.1 hn
  interval_cases n <;> exact absurd h (by decide)

/-- Settles O2: `k` counts the data positions, and position `n + 1` is one of them or not. -/
theorem validSizesAreThoseWithADataBit : Obligations.ValidSizesAreThoseWithADataBit := by
  refine ⟨fun n hn => ?count, fun n hn => ?growth⟩
  case count =>
    have hsum := dataCount_add hn
    have hpos := dataCount_pos_iff (n := n)
    omega
  case growth =>
    have hsucc := dataCount_succ hn
    omega

theorem parityPositions_pairwise (n : Nat) : (parityPositions n).Pairwise (· < ·) :=
  List.pairwise_map.2 (List.pairwise_lt_range.imp fun h => Nat.pow_lt_pow_right (by decide) h)

/-- Settles O3: the list is the powers `2^0` to `2^r`. -/
theorem parityPositionsAreThePowersOfTwo : Obligations.ParityPositionsAreThePowersOfTwo := by
  intro n hn
  have hlen : (parityPositions n).length = parityCount n + 1 := by simp [parityPositions]
  exact ⟨fun p => mem_parityPositions (one_le_of_valid hn), isPow2_iff, parityPositions_pairwise n, hlen⟩

theorem head?_dataPositions {n : Nat} (hn : ValidBlockSize n) : (dataPositions n).head? = some 3 := by
  obtain ⟨m, rfl⟩ := Nat.exists_eq_add_of_le' hn
  have h1 : isPow2 1 = true := by decide
  have h2 : isPow2 2 = true := by decide
  have h3 : isPow2 3 = false := by decide
  simp [dataPositions, positions, List.range'_succ, h1, h2, h3]

/-- Settles O4: the list keeps the ascending positions that are no power of two, and 3 is the first of these. -/
theorem dataPositionsAreTheOthersInOrder : Obligations.DataPositionsAreTheOthersInOrder := by
  intro n hn
  have h1 : 1 ≤ n := one_le_of_valid hn
  refine ⟨fun p => ?members, (positions_pairwise n).filter _, length_dataPositions h1, head?_dataPositions hn⟩
  case members =>
    rw [mem_dataPositions, mem_parityPositions h1]
    cases isPow2 p <;> simp +contextual

end Sys2Proof.Machine
end

section
/-! PROOFS of 30_encoding.md section 1: the closed forms of the data positions and the coverage sets. -/

namespace Sys2Proof.Machine

/-- R47 (b): some exponent fails the test of the closed form and the one after it passes. -/
theorem exists_dpos_exponent {j : Nat} (hj : 1 ≤ j) : ∃ f, 2 ^ f ≤ j + f ∧ j + (f + 1) < 2 ^ (f + 1) := by
  have hpass : ∃ m, j + m < 2 ^ m := by
    refine ⟨j + 1, ?_⟩
    have hlt : j < 2 ^ j := Nat.lt_two_pow_self
    rw [pow_succ]
    omega
  have hleast := Nat.find_spec hpass
  have hne : Nat.find hpass ≠ 0 := fun h => by
    rw [h, pow_zero] at hleast
    omega
  obtain ⟨f, hf⟩ := Nat.exists_eq_succ_of_ne_zero hne
  have hprev : ¬ j + f < 2 ^ f := Nat.find_min hpass (hf ▸ Nat.lt_succ_self f)
  exact ⟨f, Nat.not_lt.1 hprev, by rwa [hf] at hleast⟩

/-- R47: a place is the number of data positions up to its position. -/
theorem place_eq_dataCount (p : Nat) : place p = dataCount p := rfl

/-- R47: `dpos j` lies strictly between two neighbouring powers of two, and between them `j` is its distance from the
number of powers of two up to it. -/
theorem dpos_spec {j : Nat} (hj : 1 ≤ j) : isPow2 (dpos j) = false ∧ place (dpos j) = j := by
  obtain ⟨f, hfail, hpass⟩ := exists_dpos_exponent hj
  have hdpos := dpos_eq_add hfail hpass
  have hlog : f = parityCount (dpos j) := eq_parityCount_of_bounds (by omega) (hdpos ▸ hpass)
  refine ⟨Bool.eq_false_iff.2 fun hp => ?_, ?_⟩
  · obtain ⟨e, he⟩ := (isPow2_iff _).1 hp
    have hlo : f < e := (Nat.pow_lt_pow_iff_right (by decide)).1 (show 2 ^ f < 2 ^ e by omega)
    have hhi : e < f + 1 := (Nat.pow_lt_pow_iff_right (by decide)).1 (show 2 ^ e < 2 ^ (f + 1) by omega)
    omega
  · have hsum : place (dpos j) + (parityCount (dpos j) + 1) = dpos j := dataCount_add (by omega)
    omega

/-- R47: the position of a place is the only one that is no power of two and has that place. -/
theorem dpos_place {p : Nat} (h1 : 1 ≤ p) (hp : isPow2 p = false) : dpos (place p) = p := dpos_dataCount h1 hp

/-- Settles O5: the data positions are `dpos 1, dpos 2, ...`, `place` inverts `dpos`, and the exponent of the closed
form is the first that passes its test. -/
theorem placesGoToTheirClosedFormPositions : Obligations.PlacesGoToTheirClosedFormPositions := by
  refine ⟨fun n hn j h1 h2 => ?listed, fun j hj => ⟨(dpos_spec hj).1, (dpos_spec hj).2, ?least, ?exponent⟩⟩
  case listed =>
    have hj : j - 1 < dataCount n := by omega
    rw [dataPositions_eq_map_dpos, length_dataPositions (one_le_of_valid hn)]
    simp [positions, hj, Nat.add_sub_cancel' h1]
  case least =>
    rintro p h1 hp rfl
    exact (dpos_place h1 hp).le
  case exponent =>
    obtain ⟨f, hfail, hpass⟩ := exists_dpos_exponent hj
    refine ⟨f + 1, dpos_eq_add hfail hpass, hpass, fun m hm => ?_⟩
    by_contra hlt
    exact Nat.not_lt.2 (two_pow_le_add_of_le hfail (by omega)) hm

/-- R48: the parity positions whose checks read a position are the powers of two in its binary digits. -/
theorem mem_coveringParities {n i P : Nat} (h1 : 1 ≤ i) (h2 : i ≤ n) :
    P ∈ (parityPositions n).filter (fun P => (cover P n).contains i) ↔ ∃ j, P = 2 ^ j ∧ i.testBit j = true := by
  rw [List.mem_filter, List.contains_iff_mem]
  constructor
  · rintro ⟨hP, hi⟩
    obtain ⟨j, -, rfl⟩ := List.mem_map.1 hP
    exact ⟨j, rfl, (mem_cover_two_pow.1 hi).2⟩
  · rintro ⟨j, rfl, hj⟩
    have hwidth : j < syndromeWidth n := by
      by_contra hge
      rw [testBit_position_of_syndromeWidth_le h2 (Nat.not_lt.1 hge)] at hj
      cases hj
    exact ⟨two_pow_mem_parityPositions.2 hwidth, mem_cover_two_pow.2 ⟨⟨h1, h2⟩, hj⟩⟩

theorem eq_of_mem_of_length_le_one {α : Type} {l : List α} {a b : α} (h : l.length ≤ 1) (ha : a ∈ l) (hb : b ∈ l) :
    a = b := by
  match l, h with
  | [_], _ => exact (List.mem_singleton.1 ha).trans (List.mem_singleton.1 hb).symm

/-- R48: a position that only one check reads is that check's own. -/
theorem isPow2_of_coveringParities_le_one {n i : Nat} (h1 : 1 ≤ i) (h2 : i ≤ n)
    (h : ((parityPositions n).filter fun P => (cover P n).contains i).length ≤ 1) : isPow2 i = true := by
  have hone (e j : Nat) (he : i.testBit e = true) (hj : i.testBit j = true) : e = j :=
    Nat.pow_right_injective (le_refl 2) <|
      eq_of_mem_of_length_le_one h ((mem_coveringParities h1 h2).2 ⟨e, rfl, he⟩)
        ((mem_coveringParities h1 h2).2 ⟨j, rfl, hj⟩)
  have htop : i.testBit (parityCount i) = true := testBit_parityCount h1
  have heq : i = 2 ^ parityCount i := by
    refine Nat.eq_of_testBit_eq fun j => ?_
    rw [Nat.testBit_two_pow, Bool.eq_iff_iff, decide_eq_true_iff]
    exact ⟨hone _ j htop, fun hj => hj ▸ htop⟩
  exact heq ▸ isPow2_two_pow _

/-- R48: only its own check reads a parity position. -/
theorem coveringParities_of_parity {n P : Nat} (hn : 1 ≤ n) (hP : P ∈ parityPositions n) :
    (parityPositions n).filter (fun Q => (cover Q n).contains P) = [P] := by
  have hcongr : ∀ Q ∈ parityPositions n, (cover Q n).contains P = (Q == P) := fun Q hQ => by
    rw [Bool.eq_iff_iff, List.contains_iff_mem, beq_iff_eq, parity_mem_cover hn hQ hP, eq_comm]
  rw [List.filter_congr hcongr, List.filter_beq, List.count_eq_one_of_mem (nodup_parityPositions n) hP,
    List.replicate_one]

/-- R48: below `2^m` no position has the digit of `2^m`. -/
theorem cover_self_of_isPow2 {n : Nat} (hp : isPow2 n = true) : cover n n = [n] := by
  obtain ⟨m, rfl⟩ := (isPow2_iff n).1 hp
  have hcongr : ∀ i ∈ positions (2 ^ m), (i &&& 2 ^ m != 0) = (i == 2 ^ m) := fun i hi => by
    rw [Bool.eq_iff_iff, bne_iff_ne, and_two_pow_ne_zero, beq_iff_eq]
    rcases Nat.lt_or_eq_of_le (mem_positions.1 hi).2 with hlt | rfl
    · simp [Nat.testBit_eq_false_of_lt hlt, hlt.ne]
    · simp
  have hmem : 2 ^ m ∈ positions (2 ^ m) := mem_positions.2 ⟨Nat.two_pow_pos m, le_refl _⟩
  rw [cover, List.filter_congr hcongr, List.filter_beq, List.count_eq_one_of_mem (nodup_positions _) hmem,
    List.replicate_one]

/-- Settles O6: membership is a binary digit of the position, and a number is a power of two exactly when it has a
single 1. -/
theorem coverageSetsReadOneBinaryDigit : Obligations.CoverageSetsReadOneBinaryDigit := by
  intro n hn
  have h1 : 1 ≤ n := one_le_of_valid hn
  refine ⟨fun i j => mem_cover_two_pow.trans and_assoc, fun P hP P' hP' => parity_mem_cover h1 hP hP',
    fun i hi => ?dataPosition, fun i hi => ?parityPosition, cover_self_of_isPow2⟩
  case dataPosition =>
    obtain ⟨⟨hi1, hi2⟩, hdata⟩ := mem_dataPositions.1 hi
    by_contra hlt
    have hpow := isPow2_of_coveringParities_le_one hi1 hi2 (Nat.le_of_lt_succ (Nat.not_le.1 hlt))
    rw [hdata] at hpow
    cases hpow
  case parityPosition => rw [coveringParities_of_parity h1 hi, List.length_singleton]

end Sys2Proof.Machine
end

section
/-! PROOFS of 41_decoder.md section 2: the syndrome as an exclusive-or of positions. -/

namespace Sys2Proof.Machine

@[simp] theorem xorPositions_nil : xorPositions [] = 0 := rfl
@[simp] theorem xorPositions_cons (i : Nat) (F : List Nat) : xorPositions (i :: F) = i ^^^ xorPositions F := rfl

theorem xorPositions_append (F G : List Nat) : xorPositions (F ++ G) = xorPositions F ^^^ xorPositions G := by
  induction F with
  | nil => simp
  | cons i F ih => simp [ih, Nat.xor_assoc]

/-- A digit of an exclusive-or of positions, among the positions that a predicate picks. -/
theorem testBit_xorPositions_filter (f : Nat → Bool) (S : List Nat) (j : Nat) :
    (xorPositions (S.filter f)).testBit j = xorAll (S.map fun i => f i && i.testBit j) := by
  induction S with
  | nil => simp
  | cons i S ih =>
    rw [List.map_cons, xorAll_cons, ← ih]
    cases hf : f i <;> simp [hf]

/-- An exclusive-or over picked positions leaves the others out. -/
theorem xorOver_filter (c : Bits) (f : Nat → Bool) (S : List Nat) :
    xorOver c (S.filter f) = xorAll (S.map fun i => f i && bitAt c i) := by
  induction S with
  | nil => rfl
  | cons i S ih =>
    rw [List.map_cons, xorAll_cons, ← ih]
    cases hf : f i <;> simp [hf]

/-- R79: no position reaches a power of two above `n`. -/
theorem cover_eq_nil {n j : Nat} (hj : syndromeWidth n ≤ j) : cover (2 ^ j) n = [] := by
  refine List.eq_nil_iff_forall_not_mem.2 fun i hi => ?_
  obtain ⟨⟨-, hin⟩, hbit⟩ := mem_cover_two_pow.1 hi
  rw [testBit_position_of_syndromeWidth_le hin hj] at hbit
  cases hbit

/-- Each digit of the syndrome is a check, also where there is no check and the digit is 0. -/
theorem testBit_syndrome_eq_xorOver (n : Nat) (c : Bits) (j : Nat) :
    (syndrome n c).testBit j = xorOver c (cover (2 ^ j) n) := by
  rw [testBit_syndrome]
  by_cases hj : j < syndromeWidth n
  · simp [hj]
  · simp [hj, cover_eq_nil (Nat.not_lt.1 hj)]

/-- R80: digit `j` of both sides counts the 1s at positions with digit `j`. -/
theorem syndrome_eq_xorPositions (n : Nat) (c : Bits) : syndrome n c = xorPositions (onePositions n c) := by
  refine Nat.eq_of_testBit_eq fun j => ?_
  rw [testBit_syndrome_eq_xorOver, cover, xorOver_filter, onePositions, testBit_xorPositions_filter]
  congr 1
  refine List.map_congr_left fun i _ => ?_
  rw [Bool.and_comm, Nat.and_two_pow]
  cases i.testBit j <;> simp

/-- R80 (a): each check is linear. -/
theorem syndrome_xorBits (n : Nat) {c e : Bits} (hl : c.length = e.length) :
    syndrome n (xorBits c e) = syndrome n c ^^^ syndrome n e := by
  refine Nat.eq_of_testBit_eq fun j => ?_
  simp only [Nat.testBit_xor, testBit_syndrome_eq_xorOver, xorOver_xorBits hl]

/-- R80 (c): flips add up. -/
theorem syndrome_flipAll {n : Nat} {F : List Nat} (hF : ∀ i ∈ F, 1 ≤ i ∧ i ≤ n) {c : Bits} (hc : c.length = n) :
    syndrome n (flipAll c F) = syndrome n c ^^^ xorPositions F := by
  induction F generalizing c with
  | nil => simp [flipAll]
  | cons i F ih =>
    obtain ⟨⟨h1, h2⟩, hF⟩ := List.forall_mem_cons.1 hF
    calc syndrome n (flipAll c (i :: F))
        = syndrome n (flipAt c i) ^^^ xorPositions F := ih hF ((length_flipAt c i).trans hc)
      _ = syndrome n c ^^^ xorPositions (i :: F) := by
        rw [syndrome_flipAt hc h1 h2, xorPositions_cons, Nat.xor_assoc]

/-- Settles O19: the sum of the positions of the 1s, and its three consequences. -/
theorem syndromeIsTheXorOfOnePositions : Obligations.SyndromeIsTheXorOfOnePositions := by
  intro n c _ hc
  exact ⟨syndrome_eq_xorPositions n c, fun e he => syndrome_xorBits n (hc.trans he.symm),
    fun i h1 h2 => syndrome_flipAt hc h1 h2, fun F hF => syndrome_flipAll hF hc⟩

/-- Settles O20: a check above `n` covers nothing, so its digit is the 0 that the shorter loop leaves there. -/
theorem syndromeLoopBoundDoesNotMatter : Obligations.SyndromeLoopBoundDoesNotMatter := by
  intro n m c _ _ hm
  refine Nat.eq_of_testBit_eq fun j => ?_
  rw [testBit_syndromeUpTo, testBit_syndrome_eq_xorOver]
  by_cases hj : j < m
  · simp [hj]
  · simp [hj, cover_eq_nil (hm.trans (Nat.not_lt.1 hj))]

theorem bitAt_replicate_true {n p : Nat} (h1 : 1 ≤ p) (h2 : p ≤ n) : bitAt (List.replicate n true) p = true := by
  obtain ⟨q, rfl⟩ := Nat.exists_eq_add_of_le' h1
  simp [Nat.lt_of_succ_le h2]

theorem syndrome_ones (n : Nat) : syndrome n (List.replicate n true) = xorPositions (positions n) := by
  have hall : onePositions n (List.replicate n true) = positions n :=
    List.filter_eq_self.2 fun p hp => bitAt_replicate_true (mem_positions.1 hp).1 (mem_positions.1 hp).2
  rw [syndrome_eq_xorPositions, hall]

theorem xorPositions_positions_succ (n : Nat) :
    xorPositions (positions (n + 1)) = xorPositions (positions n) ^^^ (n + 1) := by
  rw [positions_succ, xorPositions_append, xorPositions_cons, xorPositions_nil, Nat.xor_zero]

/-- An even number and the next one differ in the lowest digit only. -/
theorem two_mul_xor_succ (a : Nat) : 2 * a ^^^ (2 * a + 1) = 1 := by
  have hhalf : (2 * a ^^^ (2 * a + 1)) / 2 = 0 := by
    rw [Nat.xor_div_two, show 2 * a / 2 = a by omega, show (2 * a + 1) / 2 = a by omega, Nat.xor_self]
  have hlow : (2 * a ^^^ (2 * a + 1)) % 2 = 1 := by
    rw [Nat.xor_mod_two_eq]
    omega
  omega

theorem one_xor_two_mul (a : Nat) : 1 ^^^ 2 * a = 2 * a + 1 :=
  calc 1 ^^^ 2 * a = (2 * a ^^^ (2 * a + 1)) ^^^ 2 * a := by rw [two_mul_xor_succ]
    _ = 2 * a + 1 := by rw [Nat.xor_comm (2 * a), Nat.xor_assoc, Nat.xor_self, Nat.xor_zero]

/-- The exclusive-or of the first positions over one period of four, given where the period begins. -/
theorem xorPositions_positions_period {q : Nat} (h : xorPositions (positions (4 * q)) = 4 * q) :
    xorPositions (positions (4 * q + 1)) = 1 ∧ xorPositions (positions (4 * q + 2)) = 4 * q + 3 ∧
      xorPositions (positions (4 * q + 3)) = 0 := by
  have hone : xorPositions (positions (4 * q + 1)) = 1 := by
    rw [xorPositions_positions_succ, h, show 4 * q = 2 * (2 * q) by omega, two_mul_xor_succ]
  have htwo : xorPositions (positions (4 * q + 2)) = 4 * q + 3 := by
    rw [xorPositions_positions_succ, hone, show 4 * q + 1 + 1 = 2 * (2 * q + 1) by omega, one_xor_two_mul]
    omega
  have hthree : xorPositions (positions (4 * q + 3)) = 0 := by
    rw [xorPositions_positions_succ, htwo, Nat.xor_self]
  exact ⟨hone, htwo, hthree⟩

theorem xorPositions_positions_four_mul (q : Nat) : xorPositions (positions (4 * q)) = 4 * q := by
  induction q with
  | zero => rfl
  | succ q ih =>
    obtain ⟨-, -, hthree⟩ := xorPositions_positions_period ih
    rw [Nat.mul_succ, xorPositions_positions_succ, hthree, Nat.zero_xor]

/-- Settles O21: the syndrome of the all-one block is the exclusive-or of all positions, which repeats its form with
period four. -/
theorem allOneBlockSyndrome : Obligations.AllOneBlockSyndrome := by
  intro n _
  rw [syndrome_ones]
  have hfour := xorPositions_positions_four_mul (n / 4)
  obtain ⟨hone, htwo, hthree⟩ := xorPositions_positions_period hfour
  refine ⟨fun h => ?_, fun h => ?_, fun h => ?_, fun h => ?_⟩
  · rwa [show 4 * (n / 4) = n by omega] at hfour
  · rwa [show 4 * (n / 4) + 1 = n by omega] at hone
  · rwa [show 4 * (n / 4) + 2 = n by omega, show 4 * (n / 4) + 3 = n + 1 by omega] at htwo
  · rwa [show 4 * (n / 4) + 3 = n by omega] at hthree

end Sys2Proof.Machine
end

section
/-! PROOFS of 30_encoding.md section 3 and 40_encoder.md section 3: distances between blocks and code words. -/

namespace Sys2Proof.Machine

theorem mem_differences {n p : Nat} {a b : Bits} :
    p ∈ differences n a b ↔ (1 ≤ p ∧ p ≤ n) ∧ bitAt a p ≠ bitAt b p := by
  simp [differences]

theorem nodup_differences (n : Nat) (a b : Bits) : (differences n a b).Nodup := (nodup_positions n).filter _

/-- The positions in which two blocks differ account for the difference of their syndromes. -/
theorem syndrome_xor_syndrome {n : Nat} {a b : Bits} (hl : a.length = b.length) :
    syndrome n a ^^^ syndrome n b = xorPositions (differences n a b) := by
  have hones : onePositions n (xorBits a b) = differences n a b :=
    List.filter_congr fun p _ => by rw [bitAt_xorBits hl, Bool.bne_eq_xor]
  rw [← syndrome_xorBits n hl, syndrome_eq_xorPositions, hones]

theorem eq_of_differences_eq_nil {n : Nat} {a b : Bits} (ha : a.length = n) (hb : b.length = n)
    (h : differences n a b = []) : a = b := by
  refine bits_ext (ha.trans hb.symm) fun p h1 h2 => ?_
  by_contra hne
  exact List.not_mem_nil (h ▸ mem_differences.2 ⟨⟨h1, ha ▸ h2⟩, hne⟩)

/-- Blocks at distance one are one flip apart. -/
theorem eq_flipAt_of_differences_eq_singleton {n i : Nat} {a b : Bits} (ha : a.length = n) (hb : b.length = n)
    (h : differences n a b = [i]) : (1 ≤ i ∧ i ≤ n) ∧ b = flipAt a i := by
  have hdiff (p : Nat) : (1 ≤ p ∧ p ≤ n) ∧ bitAt a p ≠ bitAt b p ↔ p = i := by
    rw [← mem_differences, h, List.mem_singleton]
  obtain ⟨⟨h1, h2⟩, hne⟩ := (hdiff i).2 rfl
  refine ⟨⟨h1, h2⟩, bits_ext (by rw [length_flipAt, ha, hb]) fun p hp1 hp2 => ?_⟩
  by_cases hp : p = i
  · subst hp
    rw [bitAt_flipAt_self h1 (ha ▸ h2)]
    exact Bool.eq_not.2 hne.symm
  · rw [bitAt_flipAt_ne hp]
    by_contra hne'
    exact hp ((hdiff p).1 ⟨⟨hp1, hb ▸ hp2⟩, Ne.symm hne'⟩)

/-- R88, R89: a block within one flip of a valid code word has a syndrome in range, and CORR moves it there. -/
theorem ValidCodeWord.correct_of_near {n : Nat} {w c : Bits} (hw : ValidCodeWord n w) (hc : c.length = n)
    (h : (differences n w c).length ≤ 1) : syndrome n c ≤ n ∧ correct n c (syndrome n c) = w := by
  match hD : differences n w c, h with
  | [], _ =>
    obtain rfl := eq_of_differences_eq_nil hw.1 hc hD
    rw [hw.2, correct_zero]
    exact ⟨Nat.zero_le n, rfl⟩
  | [i], _ =>
    obtain ⟨⟨h1, h2⟩, rfl⟩ := eq_flipAt_of_differences_eq_singleton hw.1 hc hD
    rw [hw.syndrome_flipAt h1 h2, correct_eq_flipAt _ h1 h2, flipAt_flipAt]
    exact ⟨h2, rfl⟩

theorem differences_comm (n : Nat) (a b : Bits) : differences n a b = differences n b a :=
  List.filter_congr fun _ _ => bne_comm

/-- R82: CORR inverts at most one position. -/
theorem length_differences_correct_le {n : Nat} {c : Bits} (hc : c.length = n) (syn : Nat) :
    (differences n c (correct n c syn)).length ≤ 1 := by
  by_cases hs : 1 ≤ syn ∧ syn ≤ n
  · rw [correct_eq_flipAt c hs.1 hs.2, differences_flipAt hc hs.1 hs.2, List.length_singleton]
  · simp [correct, hs, differences]

/-- R20, C3: at a classical size every syndrome value but 0 is a position. -/
theorem isClassicalSize_iff {n : Nat} (hn : ValidBlockSize n) :
    isClassicalSize n = true ↔ n + 1 = 2 ^ syndromeWidth n := by
  have hclass : isClassicalSize n = isPow2 (n + 1) := by simp [isClassicalSize, hn]
  rw [hclass, isPow2_iff]
  refine ⟨fun ⟨m, hm⟩ => ?_, fun h => ⟨_, h⟩⟩
  have hlo : 2 ^ parityCount n < 2 ^ m := by
    have := two_pow_parityCount_le (one_le_of_valid hn)
    omega
  have hm' : parityCount n + 1 ≤ m := (Nat.pow_lt_pow_iff_right (by decide)).1 hlo
  have hle : 2 ^ (parityCount n + 1) ≤ 2 ^ m := Nat.pow_le_pow_right (by decide) hm'
  have hhi := lt_two_pow_parityCount n
  exact le_antisymm hhi (hm ▸ hle)

/-- Settles O15: the positions in which two valid code words differ sum to 0, so there are none, or more than two. -/
theorem validCodeWordsDifferInThreePositions : Obligations.ValidCodeWordsDifferInThreePositions := by
  intro n v w _ hv hw hne
  have hsum : xorPositions (differences n v w) = 0 := by
    rw [← syndrome_xor_syndrome (hv.1.trans hw.1.symm), hv.2, hw.2, Nat.xor_self]
  match hD : differences n v w with
  | [] => exact absurd (eq_of_differences_eq_nil hv.1 hw.1 hD) hne
  | [i] =>
    have h1 : 1 ≤ i := (mem_differences.1 (hD ▸ List.mem_singleton_self i)).1.1
    have hi : i = 0 := by simpa [hD] using hsum
    omega
  | [i, j] =>
    have hij : i ≠ j := by simpa [hD] using nodup_differences n v w
    exact absurd (by simpa [hD] using hsum) hij
  | i :: j :: p :: D => simp

/-- Settles O17: CORR moves a block with a syndrome in range to the only valid code word within one flip, and at a
classical size every syndrome is in range. -/
theorem classicalSizesArePerfect : Obligations.ClassicalSizesArePerfect := by
  intro n c hn hc
  refine ⟨fun hclass => ?perfect, fun habove w hw => ?far⟩
  case perfect =>
    have hsyn : syndrome n c ≤ n := by
      have hlt := syndrome_lt n c
      have hsize := (isClassicalSize_iff hn).1 hclass
      omega
    refine ⟨correct n c (syndrome n c), validCodeWord_correct hc hsyn, ?_, fun w hw hnear => ?_⟩
    · exact differences_comm n _ _ ▸ length_differences_correct_le hc _
    · exact (hw.correct_of_near hc hnear).2.symm
  case far =>
    by_contra hlt
    have hnear : (differences n w c).length ≤ 1 := by omega
    exact Nat.not_lt.2 (hw.correct_of_near hc hnear).1 habove

end Sys2Proof.Machine
end

section
/-! PROOFS of 40_encoder.md: the closed form of the code word, and PARGEN on any placed block. -/

namespace Sys2Proof.Machine

theorem bitAt_encBlock_dpos {n j : Nat} (hn : 1 ≤ n) {d : Bits} (hd : d.length = dataCount n) (h1 : 1 ≤ j)
    (h2 : j ≤ dataCount n) : bitAt (encBlock n d) (dpos j) = bitAt d j := by
  rw [← bitAt_extract hn _ h1 h2, extract_encBlock hn hd]

/-- R70: beside its own position a check covers the data positions of the places that its tree in ENC reads. -/
theorem cover_filter_ne_eq_map_dpos {n P : Nat} (hn : 1 ≤ n) (hP : P ∈ parityPositions n) :
    (cover P n).filter (· != P) = (encTreePlaces n P).map dpos := by
  have hdata : ∀ i ∈ positions n, ((i &&& P != 0) && (i != P)) = ((i &&& P != 0) && !isPow2 i) := fun i hi => by
    cases hcov : (i &&& P != 0) with
    | false => rfl
    | true =>
      have hi : i ∈ cover P n := List.mem_filter.2 ⟨hi, hcov⟩
      have hpow : isPow2 P = true := ((mem_parityPositions hn).1 hP).2.2
      rcases cover_filter_parity hn hP hi with rfl | hdata
      · simp [hpow]
      · have hne : i ≠ P := fun h => by rw [← h, hdata] at hpow; cases hpow
        simp [hdata, hne]
  calc (cover P n).filter (· != P)
      = (positions n).filter fun i => (i &&& P != 0) && (i != P) := by
        rw [cover, List.filter_filter]; simp only [Bool.and_comm]
    _ = (positions n).filter fun i => (i &&& P != 0) && !isPow2 i := List.filter_congr hdata
    _ = (dataPositions n).filter (· &&& P != 0) := by rw [dataPositions, List.filter_filter]
    _ = ((positions (dataCount n)).map dpos).filter (· &&& P != 0) := by
        rw [← length_dataPositions hn, ← dataPositions_eq_map_dpos]
    _ = (encTreePlaces n P).map dpos := List.filter_map

theorem mem_encTreePlaces {n P j : Nat} (hj : j ∈ encTreePlaces n P) : 1 ≤ j ∧ j ≤ dataCount n :=
  mem_positions.1 (List.mem_filter.1 hj).1

/-- R70: a parity Bit is the exclusive-or of the data Bits its tree reads. -/
theorem bitAt_encBlock_parity_eq_tree {n P : Nat} (hn : 1 ≤ n) (hP : P ∈ parityPositions n) {d : Bits}
    (hd : d.length = dataCount n) : bitAt (encBlock n d) P = xorOver d (encTreePlaces n P) := by
  rw [bitAt_encBlock_parity_eq_others hn d hP, cover_filter_ne_eq_map_dpos hn hP, xorOver, List.map_map]
  refine congrArg xorAll (List.map_congr_left fun j hj => ?_)
  exact bitAt_encBlock_dpos hn hd (mem_encTreePlaces hj).1 (mem_encTreePlaces hj).2

/-- Settles O8: the data Bits stand at `dpos`, and the tree of `2^e` reads the places with that digit. -/
theorem encClosedForm : Obligations.EncClosedForm := by
  intro s d hvalid hd
  have hn : 1 ≤ s.n := one_le_of_valid hvalid
  refine ⟨_, exec_enc_fits hvalid hd, fun j h1 h2 => bitAt_encBlock_dpos hn hd h1 h2, fun e he => ?parity⟩
  case parity =>
    exact bitAt_encBlock_parity_eq_tree hn (two_pow_mem_parityPositions.2 (Nat.lt_succ_of_le he)) hd

/-- Settles O9: PARGEN in any order writes the same positions with the same sums of the placed block. -/
theorem parityOrderDoesNotMatter : Obligations.ParityOrderDoesNotMatter := by
  intro n d order hvalid _ hperm
  have hn : 1 ≤ n := one_le_of_valid hvalid
  have hnodup : order.Nodup := hperm.nodup_iff.2 (nodup_parityPositions n)
  refine bits_ext (by simp) fun p _ _ => ?_
  rw [bitAt_parGenIn hn hnodup (fun P hP => hperm.mem_iff.1 hP) (length_placeData n d), bitAt_encBlock hn]
  simp only [hperm.mem_iff]

/-- After PARGEN a check shows the Bit that stood at its parity position before. -/
theorem xorOver_parGen_cover {n P : Nat} (hn : 1 ≤ n) (hP : P ∈ parityPositions n) {c : Bits} (hc : c.length = n) :
    xorOver (parGen n c) (cover P n) = bitAt c P := by
  have hbit (p : Nat) : bitAt (parGen n c) p = if p ∈ parityPositions n then xorOver c (cover p n) else bitAt c p :=
    bitAt_parGenIn hn (nodup_parityPositions n) (fun _ h => h) hc p
  have hrest : xorOver (parGen n c) ((cover P n).filter (· != P)) = xorOver c ((cover P n).filter (· != P)) :=
    xorOver_congr fun i hi => by
      have hdata := (mem_dataPositions.1 (mem_dataPositions_of_mem_cover hn hP hi)).2
      rw [hbit, if_neg fun h => by simp [((mem_parityPositions hn).1 h).2.2] at hdata]
  rw [xorOver_eq_xor_filter_ne (nodup_cover P n) (mem_cover_self hn hP), hbit, if_pos hP, hrest,
    xorOver_eq_xor_filter_ne (nodup_cover P n) (mem_cover_self hn hP) c, Bool.xor_assoc, Bool.xor_self, Bool.xor_false]

/-- Settles O10: every check of the fresh block shows the placeholder. -/
theorem placeholderDecidesTheFreshSyndrome : Obligations.PlaceholderDecidesTheFreshSyndrome := by
  intro n d q hvalid _
  have hn : 1 ≤ n := one_le_of_valid hvalid
  have hlen : (placeWith q (positions n) d).length = n := by simp
  have hcheck (j : Nat) (hj : j < syndromeWidth n) :
      xorOver (parGen n (placeWith q (positions n) d)) (cover (2 ^ j) n) = q := by
    have hP := two_pow_mem_parityPositions.2 hj
    obtain ⟨h1, h2, hpow⟩ := (mem_parityPositions hn).1 hP
    rw [xorOver_parGen_cover hn hP hlen]
    exact bitAt_placeWith_parity q d 1 n _ h1 (Nat.lt_one_add_iff.2 h2) hpow
  refine Nat.eq_of_testBit_eq fun j => ?_
  rw [testBit_syndrome]
  by_cases hj : j < syndromeWidth n
  · rw [hcheck j hj]
    cases q <;> simp [hj]
  · cases q <;> simp [hj]

end Sys2Proof.Machine
end

section
/-! PROOFS of 40_encoder.md section 3: ENC as a linear map, and the size that wastes its last Bit. -/

namespace Sys2Proof.Machine

/-- A block with syndrome 0 is the code word of any data word that EXTRACT reads out of it. -/
theorem encBlock_eq_of_extract_eq {n : Nat} {w d : Bits} (hn : 1 ≤ n) (hw : ValidCodeWord n w)
    (hd : extract n w = d) : encBlock n d = w :=
  hd ▸ hw.encBlock_extract hn

theorem extract_xorBits (n : Nat) {a b : Bits} (hl : a.length = b.length) :
    extract n (xorBits a b) = xorBits (extract n a) (extract n b) := by
  simp only [extract, xorBits, List.zipWith_map, List.zipWith_self]
  exact List.map_congr_left fun p _ => bitAt_xorBits hl p

theorem ValidCodeWord.xorBits {n : Nat} {v w : Bits} (hv : ValidCodeWord n v) (hw : ValidCodeWord n w) :
    ValidCodeWord n (xorBits v w) := by
  obtain ⟨hvl, hvs⟩ := hv
  obtain ⟨hwl, hws⟩ := hw
  refine ⟨by rw [length_xorBits, hvl, hwl, Nat.min_self], ?_⟩
  rw [syndrome_xorBits n (hvl.trans hwl.symm), hvs, hws, Nat.xor_self]

theorem bitAt_zeros (m p : Nat) : bitAt (zeros m) p = false := by
  cases p with
  | zero => rfl
  | succ q => by_cases hq : q < m <;> simp [zeros, hq]

theorem xorOver_zeros (m : Nat) (S : List Nat) : xorOver (zeros m) S = false := by
  induction S with
  | nil => rfl
  | cons p S ih => rw [xorOver_cons, bitAt_zeros, ih, Bool.xor_false]

theorem validCodeWord_zeros (n : Nat) : ValidCodeWord n (zeros n) := by
  have hones : onePositions n (zeros n) = [] := by simp [onePositions, bitAt_zeros]
  exact ⟨length_zeros n, by rw [syndrome_eq_xorPositions, hones, xorPositions_nil]⟩

theorem extract_zeros {n : Nat} (hn : 1 ≤ n) (m : Nat) : extract n (zeros m) = zeros (dataCount n) := by
  have hmap : extract n (zeros m) = (dataPositions n).map fun _ => false :=
    List.map_congr_left fun p _ => bitAt_zeros m p
  rw [hmap, List.map_const', length_dataPositions hn, zeros]

/-- Settles O11: zeros and exclusive-ors of code words are code words, of the data words read out of them. -/
theorem encIsLinearAndInjective : Obligations.EncIsLinearAndInjective := by
  intro n hvalid
  have hn : 1 ≤ n := one_le_of_valid hvalid
  refine ⟨encBlock_eq_of_extract_eq hn (validCodeWord_zeros n) (extract_zeros hn n),
    fun d e hd he => ⟨?linear, fun heq => ?injective⟩⟩
  case linear =>
    refine encBlock_eq_of_extract_eq hn ((validCodeWord_encBlock hn d).xorBits (validCodeWord_encBlock hn e)) ?_
    rw [extract_xorBits n (by simp), extract_encBlock hn hd, extract_encBlock hn he]
  case injective => rw [← extract_encBlock hn hd, heq, extract_encBlock hn he]

theorem bitAt_append_left {a : Bits} (b : Bits) {p : Nat} (h : p ≤ a.length) : bitAt (a ++ b) p = bitAt a p := by
  cases p with
  | zero => rfl
  | succ q => simp [List.getElem?_append_left (Nat.lt_of_succ_le h)]

theorem bitAt_concat (a : Bits) (b : Bit) : bitAt (a ++ [b]) (a.length + 1) = b := by simp

/-- R72 (b): a last position that is a power of two and holds 0 adds nothing to a block. -/
theorem extract_concat {n : Nat} (hp : isPow2 (n + 1) = true) {c : Bits} (hc : c.length = n) (b : Bit) :
    extract (n + 1) (c ++ [b]) = extract n c := by
  rw [extract, dataPositions_succ_parity hp]
  exact List.map_congr_left fun p hp => bitAt_append_left _ (hc ▸ (mem_dataPositions.1 hp).1.2)

theorem syndrome_concat_false {n : Nat} {c : Bits} (hc : c.length = n) :
    syndrome (n + 1) (c ++ [false]) = syndrome n c := by
  have hlast : bitAt (c ++ [false]) (n + 1) = false := hc ▸ bitAt_concat c false
  have hfront : (positions n).filter (bitAt (c ++ [false])) = (positions n).filter (bitAt c) :=
    List.filter_congr fun p hp => bitAt_append_left _ (hc ▸ (mem_positions.1 hp).2)
  rw [syndrome_eq_xorPositions, syndrome_eq_xorPositions, onePositions, onePositions, positions_succ,
    List.filter_append, hfront, List.filter_singleton, hlast]
  simp

/-- Settles O12: the code word of size `n - 1` followed by 0 is a code word of size `n`, of the same data word. -/
theorem powerOfTwoSizeWastesItsLastBit : Obligations.PowerOfTwoSizeWastesItsLastBit := by
  intro n hn hpow
  obtain ⟨m, rfl⟩ := Nat.exists_eq_add_of_le' (show 1 ≤ n by omega)
  have hm : 1 ≤ m := by omega
  have hcount : dataCount (m + 1) = dataCount m := by
    rw [← length_dataPositions hm, ← length_dataPositions (Nat.succ_pos m), dataPositions_succ_parity hpow]
  refine ⟨hcount, fun d hd => ?_⟩
  have hlen := length_encBlock m d
  have hword : ValidCodeWord (m + 1) (encBlock m d ++ [false]) :=
    ⟨by rw [List.length_append, hlen, List.length_singleton],
      (syndrome_concat_false hlen).trans (validCodeWord_encBlock hm d).2⟩
  have hdata : extract (m + 1) (encBlock m d ++ [false]) = d := by
    rw [extract_concat hpow hlen, extract_encBlock hm (hd.trans hcount)]
  exact encBlock_eq_of_extract_eq (Nat.succ_pos m) hword hdata

end Sys2Proof.Machine
end

section
/-! PROOFS of 30_encoding.md section 3 and 41_decoder.md section 3: how many blocks have each syndrome. -/

namespace Sys2Proof.Machine

theorem mem_allWords {m : Nat} {c : Bits} : c ∈ allWords m ↔ c.length = m := by
  induction m generalizing c with
  | zero => simp [allWords]
  | succ m ih =>
    cases c with
    | nil => simp [allWords]
    | cons b c => cases b <;> simp [allWords, ih]

theorem length_allWords (m : Nat) : (allWords m).length = 2 ^ m := by
  induction m with
  | zero => rfl
  | succ m ih => rw [allWords, List.length_append, List.length_map, List.length_map, ih, pow_succ, Nat.mul_two]

theorem nodup_allWords (m : Nat) : (allWords m).Nodup := by
  induction m with
  | zero => exact List.nodup_singleton _
  | succ m ih =>
    have hcons (b : Bit) : ((allWords m).map (b :: ·)).Nodup := ih.map (List.cons_injective)
    refine List.nodup_append'.2 ⟨hcons false, hcons true, fun c hfalse htrue => ?_⟩
    obtain ⟨_, -, rfl⟩ := List.mem_map.1 hfalse
    obtain ⟨_, -, h⟩ := List.mem_map.1 htrue
    cases h

/-- The block whose parity Bits are the digits of `v` and whose data Bits are 0. -/
def parityPattern (n v : Nat) : Bits := (positions n).map fun p => isPow2 p && v &&& p != 0

@[simp] theorem length_parityPattern (n v : Nat) : (parityPattern n v).length = n := by simp [parityPattern]

theorem bitAt_parityPattern {n v p : Nat} (h1 : 1 ≤ p) (h2 : p ≤ n) :
    bitAt (parityPattern n v) p = (isPow2 p && v &&& p != 0) := by
  obtain ⟨q, rfl⟩ := Nat.exists_eq_add_of_le' h1
  simp [parityPattern, positions, Nat.lt_of_succ_le h2, Nat.add_comm 1 q]

theorem extract_parityPattern {n : Nat} (hn : 1 ≤ n) (v : Nat) :
    extract n (parityPattern n v) = zeros (dataCount n) := by
  rw [← extract_zeros hn n, extract_eq_iff]
  intro p hp
  obtain ⟨⟨h1, h2⟩, hdata⟩ := mem_dataPositions.1 hp
  rw [bitAt_parityPattern h1 h2, hdata, bitAt_zeros, Bool.false_and]

/-- R59: check `j` of the pattern reads digit `j` of `v` and data Bits that are 0. -/
theorem syndrome_parityPattern {n v : Nat} (hn : 1 ≤ n) (hv : v < 2 ^ syndromeWidth n) :
    syndrome n (parityPattern n v) = v := by
  refine Nat.eq_of_testBit_eq fun j => ?_
  rw [testBit_syndrome]
  by_cases hj : j < syndromeWidth n
  · have hP := two_pow_mem_parityPositions.2 hj
    obtain ⟨h1, h2, hpow⟩ := (mem_parityPositions hn).1 hP
    have hown : bitAt (parityPattern n v) (2 ^ j) = v.testBit j := by
      rw [bitAt_parityPattern h1 h2, hpow, Bool.true_and, Bool.eq_iff_iff, bne_iff_ne, and_two_pow_ne_zero]
    have hrest : xorOver (parityPattern n v) ((cover (2 ^ j) n).filter (· != 2 ^ j)) =
        xorOver (zeros n) ((cover (2 ^ j) n).filter (· != 2 ^ j)) := xorOver_congr fun i hi =>
      extract_eq_iff.1 ((extract_parityPattern hn v).trans (extract_zeros hn n).symm) i
        (mem_dataPositions_of_mem_cover hn hP hi)
    rw [xorOver_eq_xor_filter_ne (nodup_cover _ n) (mem_cover_self hn hP), hown, hrest,
      xorOver_zeros]
    simp [hj]
  · have hbit : v.testBit j = false :=
      Nat.testBit_eq_false_of_lt (hv.trans_le (Nat.pow_le_pow_right (by decide) (Nat.not_lt.1 hj)))
    simp [hj, hbit]

/-- The block of a data word that has the syndrome `v`. -/
def wordWithSyndrome (n v : Nat) (d : Bits) : Bits := xorBits (encBlock n d) (parityPattern n v)

@[simp] theorem length_wordWithSyndrome (n v : Nat) (d : Bits) : (wordWithSyndrome n v d).length = n := by
  simp [wordWithSyndrome]

theorem syndrome_wordWithSyndrome {n v : Nat} (hn : 1 ≤ n) (hv : v < 2 ^ syndromeWidth n) (d : Bits) :
    syndrome n (wordWithSyndrome n v d) = v := by
  rw [wordWithSyndrome, syndrome_xorBits n (by simp), (validCodeWord_encBlock hn d).2, syndrome_parityPattern hn hv,
    Nat.zero_xor]

theorem xorBits_zeros {m : Nat} {d : Bits} (hd : d.length = m) : xorBits d (zeros m) = d := by
  refine bits_ext (by simp [hd]) fun p _ _ => ?_
  rw [bitAt_xorBits (by simp [hd]), bitAt_zeros, Bool.xor_false]

theorem extract_wordWithSyndrome {n : Nat} (hn : 1 ≤ n) (v : Nat) {d : Bits} (hd : d.length = dataCount n) :
    extract n (wordWithSyndrome n v d) = d := by
  rw [wordWithSyndrome, extract_xorBits n (by simp), extract_encBlock hn hd, extract_parityPattern hn,
    xorBits_zeros hd]

/-- R59: the blocks with syndrome `v` are one per data word. -/
theorem filter_syndrome_perm {n v : Nat} (hn : 1 ≤ n) (hv : v < 2 ^ syndromeWidth n) :
    ((allWords n).filter fun c => syndrome n c == v).Perm ((allWords (dataCount n)).map (wordWithSyndrome n v)) := by
  have hinj : ∀ d ∈ allWords (dataCount n), ∀ e ∈ allWords (dataCount n),
      wordWithSyndrome n v d = wordWithSyndrome n v e → d = e := fun d hd e he h => by
    rw [← extract_wordWithSyndrome hn v (mem_allWords.1 hd), h, extract_wordWithSyndrome hn v (mem_allWords.1 he)]
  have hnodup := (List.nodup_map_iff_inj_on (nodup_allWords (dataCount n))).2 hinj
  refine (List.perm_ext_iff_of_nodup ((nodup_allWords n).filter _) hnodup).2 fun c => ?_
  rw [List.mem_filter, mem_allWords, beq_iff_eq, List.mem_map]
  constructor
  · rintro ⟨hlen, hsyn⟩
    have hdata := length_extract hn c
    exact ⟨extract n c, mem_allWords.2 hdata, eq_of_syndrome_eq_of_extract_eq hn (length_wordWithSyndrome n v _) hlen
      ((syndrome_wordWithSyndrome hn hv _).trans hsyn.symm) (extract_wordWithSyndrome hn v hdata)⟩
  · rintro ⟨d, -, rfl⟩
    exact ⟨length_wordWithSyndrome n v d, syndrome_wordWithSyndrome hn hv d⟩

/-- Settles O16: there is one block with syndrome `v` per data word. -/
theorem everySyndromeIsTakenEquallyOften : Obligations.EverySyndromeIsTakenEquallyOften := by
  intro n v hvalid hv
  rw [(filter_syndrome_perm (one_le_of_valid hvalid) hv).length_eq, List.length_map, length_allWords]

/-- Settles O14: ENC gives valid code words, every one is the code word of its own data word, and the count is that
of syndrome 0. -/
theorem validCodeWordsAreTheOutputsOfEnc : Obligations.ValidCodeWordsAreTheOutputsOfEnc := by
  intro n hvalid
  have hn : 1 ≤ n := one_le_of_valid hvalid
  refine ⟨fun d _ => (validCodeWord_encBlock hn d).2, fun c => ⟨fun hc => ?_, ?_⟩,
    everySyndromeIsTakenEquallyOften n 0 hvalid (Nat.two_pow_pos _)⟩
  · exact ⟨extract n c, length_extract hn c, (hc.encBlock_extract hn).symm⟩
  · rintro ⟨d, -, rfl⟩
    exact validCodeWord_encBlock hn d

/-- Settles O18: every value that fits the syndrome wires is taken, and the first one above `n` fits exactly when `n`
is not the greatest number of its width. -/
theorem syndromesAboveNExistExactlyAtNonClassicalSizes :
    Obligations.SyndromesAboveNExistExactlyAtNonClassicalSizes := by
  intro n hvalid
  have hn : 1 ≤ n := one_le_of_valid hvalid
  have htaken (v : Nat) (hv : v < 2 ^ syndromeWidth n) : ∃ c : Bits, c.length = n ∧ syndrome n c = v :=
    ⟨parityPattern n v, length_parityPattern n v, syndrome_parityPattern hn hv⟩
  have hwidth : n < 2 ^ syndromeWidth n := lt_two_pow_parityCount n
  rw [Bool.eq_false_iff, Ne, isClassicalSize_iff hvalid]
  refine ⟨⟨fun ⟨c, _, habove⟩ => ?_, fun hne => ?_⟩, fun v _ hv => htaken v hv⟩
  · have hlt := syndrome_lt n c
    omega
  · obtain ⟨c, hlen, hsyn⟩ := htaken (n + 1) (by omega)
    exact ⟨c, hlen, by omega⟩

end Sys2Proof.Machine
end

section
/-! PROOFS of 41_decoder.md sections 1, 2 and 4: the five results of DEC on any block. -/

namespace Sys2Proof.Machine

/-- CORR changes no position but the one that the syndrome names. -/
theorem bitAt_correct_ne {n syn p : Nat} (c : Bits) (hp : p ≠ syn) : bitAt (correct n c syn) p = bitAt c p := by
  unfold correct
  split
  · exact bitAt_flipAt_ne hp
  · rfl

theorem bitAt_correct_self {n syn : Nat} {c : Bits} (hc : c.length = n) (h1 : 1 ≤ syn) (h2 : syn ≤ n) :
    bitAt (correct n c syn) syn = !bitAt c syn := by
  rw [correct_eq_flipAt c h1 h2, bitAt_flipAt_self h1 (hc ▸ h2)]

/-- Settles O22: the five results are those of `decBlock`; CORR inverts the named position only, EXTRACT reads
`dpos j`, and the ports of ENC do not read `dec_c_i`. -/
theorem decGivesTheFiveResults : Obligations.DecGivesTheFiveResults := by
  intro n c hvalid hc
  have hn : 1 ≤ n := one_le_of_valid hvalid
  refine ⟨(decBlock n c).data, (decBlock n c).syn, (decBlock n c).cc, (decBlock n c).err, (decBlock n c).oor,
    length_extract hn _, syndrome_lt n c, (length_correct n c _).trans hc, fun j _ => testBit_syndrome_eq_xorOver n c j,
    fun h1 h2 => bitAt_correct_self hc h1 h2, fun p _ _ hp => bitAt_correct_ne c hp, fun h0 => ?syndromeZero,
    fun habove => correct_of_lt c habove, length_differences_correct_le hc _, fun j h1 h2 => bitAt_extract hn _ h1 h2,
    errFlag_eq_true _, oorFlag_eq_true n _, ?completes⟩
  case syndromeZero =>
    have h0 : syndrome n c = 0 := h0
    rw [decBlock_cc, h0, correct_zero]
  case completes =>
    rintro s rfl
    exact ⟨_, exec_dec_fits hvalid hc, rfl, rfl, rfl, rfl, rfl, rfl, rfl, rfl⟩

/-- D7: above `n` CORR inverts nothing and both status outputs are 1. -/
theorem decBlock_of_lt {n : Nat} {c : Bits} (h : n < syndrome n c) :
    decBlock n c = { data := extract n c, syn := syndrome n c, cc := c, err := true, oor := true } := by
  have herr : errFlag (syndrome n c) = true := (errFlag_eq_true _).2 (Nat.ne_zero_of_lt h)
  have hoor : oorFlag n (syndrome n c) = true := (oorFlag_eq_true n _).2 h
  simp only [decBlock, correct_of_lt c h, herr, hoor]

/-- Settles O23: the results above `n` are those of `decBlock_of_lt`; a valid code word has the syndrome 0 and one
flip gives it a position; and no syndrome is above the greatest number of its width. -/
theorem syndromeAboveNInvertsNothing : Obligations.SyndromeAboveNInvertsNothing := by
  refine ⟨fun s c hn hc habove => ?results, fun n w _ hw => ⟨?noFlip, fun i h1 h2 => ?oneFlip⟩,
    fun n c _ _ hmax => ?never⟩
  case results =>
    have houtputs := State.dec_outputs_of_decBlock (s := { s with decCI := c }) (decBlock_of_lt habove)
    exact ⟨_, exec_dec_fits hn hc, rfl, houtputs⟩
  case noFlip => simp [hw.2]
  case oneFlip =>
    rw [hw.syndrome_flipAt h1 h2]
    exact Nat.not_lt.2 h2
  case never =>
    have hlt : syndrome n c < 2 ^ (parityCount n + 1) := syndrome_lt n c
    omega

/-- Settles O30: in range the corrected block is a valid code word, which DEC leaves as it is; above `n` it is the
received block. -/
theorem correctedBlockIsTheCodeWordOfItsData : Obligations.CorrectedBlockIsTheCodeWordOfItsData := by
  intro s c hn hc
  refine ⟨_, exec_dec_fits hn hc, fun hs => ?inRange, fun (habove : s.n < syndrome s.n c) => ?above⟩
  case inRange =>
    have hw := validCodeWord_correct hc hs
    have houtputs := State.dec_outputs_of_decBlock
      (s := { s with decCI := correct s.n c (syndrome s.n c) }) hw.decBlock_eq
    obtain ⟨hdata, hsyn, -⟩ := houtputs
    exact ⟨hw.2, hw.encBlock_extract (one_le_of_valid hn), _, exec_dec_fits hn hw.1, hsyn, hdata⟩
  case above =>
    have hcc : correct s.n c (syndrome s.n c) = c := correct_of_lt c habove
    refine ⟨hcc, congrArg (syndrome s.n) hcc, fun hvalid => ?_⟩
    exact Nat.not_lt.2 ((validCodeWord_correct_iff hc).1 hvalid) habove

/-- Settles O13: at size 3 there is one data Bit and eight blocks. -/
theorem sizeThreeIsRepetitionAndMajority : Obligations.SizeThreeIsRepetitionAndMajority := by
  intro s hs
  have hn : ValidBlockSize s.n := hs ▸ le_refl 3
  have henc (b : Bit) : encBlock 3 [b] = [b, b, b] := by cases b <;> decide
  have hdec (x y z : Bit) : (decBlock 3 [x, y, z]).data = [(x && y) || (x && z) || (y && z)] := by
    cases x <;> cases y <;> cases z <;> decide
  refine ⟨fun b => ⟨_, exec_enc_fits hn (hs ▸ rfl), rfl, ?_⟩, fun x y z => ⟨_, exec_dec_fits hn (hs ▸ rfl), ?_⟩⟩
  · rw [State.withEncDI_encCO, hs, henc]
  · rw [State.decDO, State.withDecCI_decResult, hs, hdec]

end Sys2Proof.Machine
end

section
/-! PROOFS of 41_decoder.md sections 3 and 4: what DEC makes of flips of a valid code word. -/

namespace Sys2Proof.Machine

/-- Flipping a position toggles the Bit there and no other one. -/
theorem bitAt_flipAt {c : Bits} {i : Nat} (h1 : 1 ≤ i) (h2 : i ≤ c.length) (p : Nat) :
    bitAt (flipAt c i) p = Bool.xor (bitAt c p) (decide (p = i)) := by
  by_cases hp : p = i
  · subst hp
    simp [bitAt_flipAt_self h1 h2]
  · simp [bitAt_flipAt_ne hp, hp]

/-- R95 (c): a flip of a parity position is none of a data Bit. -/
theorem extract_flipAt_of_parity (n : Nat) (c : Bits) {P : Nat} (hP : isPow2 P = true) :
    extract n (flipAt c P) = extract n c := by
  refine extract_eq_iff.2 fun p hp => bitAt_flipAt_ne fun h => ?_
  have hdata := (mem_dataPositions.1 hp).2
  rw [h, hP] at hdata
  cases hdata

/-- Blocks with the same data word agree wherever a position is no power of two. -/
theorem isPow2_of_bitAt_ne {n p : Nat} {a b : Bits} (h : extract n a = extract n b) (h1 : 1 ≤ p) (h2 : p ≤ n)
    (hne : bitAt a p ≠ bitAt b p) : isPow2 p = true := by
  by_contra hp
  exact hne (extract_eq_iff.1 h p (mem_dataPositions.2 ⟨⟨h1, h2⟩, Bool.eq_false_iff.2 hp⟩))

/-- Settles O31: the flip is none of a data Bit, and as a single flip it is corrected. -/
theorem parityFlipChangesNoData : Obligations.ParityFlipChangesNoData := by
  intro s w P hn hw hP
  obtain ⟨h1, h2, hpow⟩ := (mem_parityPositions (one_le_of_valid hn)).1 hP
  refine ⟨extract_flipAt_of_parity s.n w hpow, ?_⟩
  obtain ⟨t, hexec, -, hdata, hsyn, hcc, herr, hoor⟩ := anySingleFlipIsCorrected s w P hn hw h1 h2
  exact ⟨t, hexec, hsyn, herr, hoor, hcc, by rw [hdata, hw.decBlock_eq]⟩

/-- Settles O29: the three positions sum to 0, so the result is another valid code word, with another data Bit at
position 3. -/
theorem threeFlipsCanPassUnnoticed : Obligations.ThreeFlipsCanPassUnnoticed := by
  intro s w hn hw
  have hlen : (flipAll w [1, 2, 3]).length = s.n := by simp [flipAll, hw.1]
  have hF : ∀ i ∈ [1, 2, 3], 1 ≤ i ∧ i ≤ s.n := by
    have h3 : 3 ≤ s.n := hn
    intro i hi
    have hi : i = 1 ∨ i = 2 ∨ i = 3 := by simpa using hi
    omega
  have hsyn : syndrome s.n (flipAll w [1, 2, 3]) = 0 := by
    rw [syndrome_flipAll hF hw.1, hw.2]
    decide
  obtain ⟨hdata, hsynO, hcc, herr, hoor⟩ := State.dec_outputs_of_decBlock
    (s := { s with decCI := flipAll w [1, 2, 3] }) (ValidCodeWord.decBlock_eq ⟨hlen, hsyn⟩)
  refine ⟨_, exec_dec_fits hn hlen, hsynO, herr, hoor, hcc, fun hsame => ?wrongData⟩
  case wrongData =>
    rw [hdata, hw.decBlock_eq] at hsame
    have hflip : bitAt (flipAll w [1, 2, 3]) 3 ≠ bitAt w 3 := by
      have h3 : 3 ≤ w.length := hw.1 ▸ hn
      have h2 : 2 ≤ w.length := le_trans (by decide) h3
      have h1 : 1 ≤ w.length := le_trans (by decide) h3
      simp [flipAll, bitAt_flipAt, h1, h2, h3, -bitAt_succ]
    exact absurd (isPow2_of_bitAt_ne hsame (by decide) hn hflip) (by decide)

section TwoFlips

variable {n i j : Nat} {w : Bits} (hw : ValidCodeWord n w) (hi1 : 1 ≤ i) (hi2 : i ≤ n) (hj1 : 1 ≤ j) (hj2 : j ≤ n)
include hw hi1 hi2 hj1 hj2

theorem bitAt_twoFlips (p : Nat) :
    bitAt (flipAt (flipAt w i) j) p = Bool.xor (Bool.xor (bitAt w p) (decide (p = i))) (decide (p = j)) := by
  rw [bitAt_flipAt hj1 (by rwa [length_flipAt, hw.1]), bitAt_flipAt hi1 (by rwa [hw.1])]

theorem syndrome_twoFlips : syndrome n (flipAt (flipAt w i) j) = i ^^^ j := by
  rw [syndrome_flipAt ((length_flipAt w i).trans hw.1) hj1 hj2, hw.syndrome_flipAt hi1 hi2]

/-- R90 (a), in range: the corrected block differs from the code word in the two flips and in the syndrome, which is
a third position. -/
theorem bitAt_correct_twoFlips (hij : i ≠ j) (hs : i ^^^ j ≤ n) (p : Nat) :
    bitAt (correct n (flipAt (flipAt w i) j) (i ^^^ j)) p ≠ bitAt w p ↔ p = i ∨ p = j ∨ p = i ^^^ j := by
  have hs1 : 1 ≤ i ^^^ j := Nat.pos_of_ne_zero (Nat.xor_ne_zero_iff.2 hij)
  have hsi : i ^^^ j ≠ i := by simpa using Nat.ne_of_gt hj1
  have hsj : i ^^^ j ≠ j := by simpa using Nat.ne_of_gt hi1
  rw [correct_eq_flipAt _ hs1 hs, bitAt_flipAt hs1 (by simpa [hw.1] using hs),
    bitAt_twoFlips hw hi1 hi2 hj1 hj2]
  by_cases hpi : p = i
  · simp [hpi, hij, hsi.symm]
  · by_cases hpj : p = j
    · simp [hpj, hij.symm, hsj.symm]
    · cases bitAt w p <;> simp [hpi, hpj]

/-- R90 (a), above `n`: the data word survives exactly when both flips miss it. -/
theorem extract_twoFlips_iff (hij : i ≠ j) :
    extract n (flipAt (flipAt w i) j) = extract n w ↔ isPow2 i = true ∧ isPow2 j = true := by
  constructor
  · intro h
    have hbit := bitAt_twoFlips hw hi1 hi2 hj1 hj2
    exact ⟨isPow2_of_bitAt_ne h hi1 hi2 (by simp [hbit, hij]), isPow2_of_bitAt_ne h hj1 hj2 (by simp [hbit, hij.symm])⟩
  · rintro ⟨hi, hj⟩
    rw [extract_flipAt_of_parity n _ hj, extract_flipAt_of_parity n _ hi]

end TwoFlips

/-- Settles O28: in range CORR adds a third difference and reaches another valid code word, whose data word is
another one; above `n` it inverts nothing. -/
theorem twoFlipsAreMiscorrectedOrOutOfRange : Obligations.TwoFlipsAreMiscorrectedOrOutOfRange := by
  intro s w i j hn hw hi1 hi2 hj1 hj2 hij
  have hlen : (flipAt (flipAt w i) j).length = s.n := by rw [length_flipAt, length_flipAt, hw.1]
  have hsyn := syndrome_twoFlips hw hi1 hi2 hj1 hj2
  have hne0 : i ^^^ j ≠ 0 := Nat.xor_ne_zero_iff.2 hij
  have hnei : i ^^^ j ≠ i := by simpa using Nat.ne_of_gt hj1
  have hnej : i ^^^ j ≠ j := by simpa using Nat.ne_of_gt hi1
  refine ⟨_, exec_dec_fits hn hlen, hsyn, ?_⟩
  simp only [State.decSynO_eq, State.decErrO_eq, State.decOorO_eq, State.decCcO_eq, State.decDO_eq, hsyn]
  refine ⟨hne0, hnei, hnej, (errFlag_eq_true _).2 hne0, fun hs => ?inRange, fun habove => ?above⟩
  case inRange =>
    have hcc := validCodeWord_correct hlen (hsyn.symm ▸ hs)
    rw [hsyn] at hcc
    have hbit := bitAt_correct_twoFlips hw hi1 hi2 hj1 hj2 hij hs
    refine ⟨oorFlag_eq_false.2 hs, hcc, fun p _ _ => hbit p, fun hsame => ?_⟩
    rw [hw.decBlock_eq] at hsame
    have hsameWord := eq_of_syndrome_eq_of_extract_eq (one_le_of_valid hn) hcc.1 hw.1 (hcc.2.trans hw.2.symm) hsame
    exact (hbit i).2 (.inl rfl) (by rw [hsameWord])
  case above =>
    rw [correct_of_lt _ habove, hw.decBlock_eq]
    exact ⟨(oorFlag_eq_true _ _).2 habove, rfl, extract_twoFlips_iff hw hi1 hi2 hj1 hj2 hij⟩

end Sys2Proof.Machine
end

section
/-! PROOFS of 70_reset_and_hazards.md section 4: the netlists of the two units. -/

namespace Sys2Proof.Machine

theorem bitAt_map_positions {n p : Nat} (f : Nat → Bit) (h1 : 1 ≤ p) (h2 : p ≤ n) :
    bitAt ((positions n).map f) p = f p := by
  obtain ⟨q, rfl⟩ := Nat.exists_eq_add_of_le' h1
  simp [positions, Nat.lt_of_succ_le h2, Nat.add_comm 1 q]

/-- R153: the wires of `enc_c_o` are the Bits of the code word. -/
theorem encNet_eq_encBlock {n : Nat} (hn : 1 ≤ n) {d : Bits} (hd : d.length = dataCount n) :
    encNet n d = encBlock n d := by
  refine bits_ext (by simp [encNet]) fun p h1 h2 => ?_
  replace h2 : p ≤ n := by simpa [encNet] using h2
  rw [encNet, bitAt_map_positions _ h1 h2, encWire]
  by_cases hp : isPow2 p = true
  · rw [if_pos hp, bitAt_encBlock_parity_eq_tree hn ((mem_parityPositions hn).2 ⟨h1, h2, hp⟩) hd]
  · have hdata : isPow2 p = false := Bool.eq_false_iff.2 hp
    have hlisted : p ∈ (positions (dataCount n)).map dpos := by
      rw [← length_dataPositions hn, ← dataPositions_eq_map_dpos]
      exact mem_dataPositions.2 ⟨⟨h1, h2⟩, hdata⟩
    obtain ⟨j, hj, rfl⟩ := List.mem_map.1 hlisted
    obtain ⟨hj1, hj2⟩ := mem_positions.1 hj
    rw [if_neg hp, (dpos_spec hj1).2, bitAt_encBlock_dpos hn hd hj1 hj2]

/-- R153: the tree of a parity position in ENC leaves out that position only. -/
theorem length_encTreePlaces {n P : Nat} (hn : 1 ≤ n) (hP : P ∈ parityPositions n) :
    (encTreePlaces n P).length = encTreeInputs n P := by
  have hlen : (encTreePlaces n P).length = ((cover P n).filter (· != P)).length := by
    rw [cover_filter_ne_eq_map_dpos hn hP, List.length_map]
  rw [hlen, ← (nodup_cover P n).erase_eq_filter P, List.length_erase_of_mem (mem_cover_self hn hP), encTreeInputs]

theorem synWire_eq (n : Nat) (c : Bits) (j : Nat) : synWire n c j = (syndrome n c).testBit j :=
  (testBit_syndrome_eq_xorOver n c j).symm

/-- R153: the syndrome trees together are the syndrome in binary. -/
theorem map_synWire (n : Nat) (c : Bits) :
    (List.range (syndromeWidth n)).map (synWire n c) = lowBits (syndromeWidth n) (syndrome n c) :=
  List.map_congr_left fun j _ => synWire_eq n c j

theorem wordValue_lowBits_syndrome (n : Nat) (c : Bits) :
    wordValue (lowBits (syndromeWidth n) (syndrome n c)) = syndrome n c := by
  rw [wordValue_lowBits, Nat.mod_eq_of_lt (syndrome_lt n c)]

/-- Numbers that fit the syndrome wires are equal when their digits on the wires are. -/
theorem eq_of_testBit_lt_syndromeWidth {n a b : Nat} (ha : a < 2 ^ syndromeWidth n) (hb : b < 2 ^ syndromeWidth n)
    (h : ∀ j < syndromeWidth n, a.testBit j = b.testBit j) : a = b := by
  refine Nat.eq_of_testBit_eq fun j => ?_
  by_cases hj : j < syndromeWidth n
  · exact h j hj
  · have hpow : 2 ^ syndromeWidth n ≤ 2 ^ j := Nat.pow_le_pow_right (by decide) (Nat.not_lt.1 hj)
    rw [Nat.testBit_eq_false_of_lt (ha.trans_le hpow), Nat.testBit_eq_false_of_lt (hb.trans_le hpow)]

/-- R153: the select decoder raises the line of the position that the syndrome names. -/
theorem selectLine_eq {n p : Nat} (c : Bits) (h2 : p ≤ n) : selectLine n c p = (p == syndrome n c) := by
  rw [Bool.eq_iff_iff, selectLine, List.all_eq_true, beq_iff_eq]
  simp only [List.mem_range, synWire_eq, beq_iff_eq]
  have hp : p < 2 ^ syndromeWidth n := h2.trans_lt (lt_two_pow_parityCount n)
  exact ⟨fun h => (eq_of_testBit_lt_syndromeWidth (syndrome_lt n c) hp h).symm, fun h j _ => by rw [h]⟩

/-- R153: inverting the selected Bit is CORR. -/
theorem ccWire_eq {n p : Nat} {c : Bits} (hc : c.length = n) (h1 : 1 ≤ p) (h2 : p ≤ n) :
    ccWire n c p = bitAt (correct n c (syndrome n c)) p := by
  rw [ccWire, selectLine_eq c h2]
  by_cases hp : p = syndrome n c
  · rw [← hp, bitAt_correct_self hc h1 h2, beq_self_eq_true, Bool.xor_true]
  · rw [bitAt_correct_ne c hp, beq_eq_false_iff_ne.2 hp, Bool.xor_false]

/-- The OR of the syndrome wires is 1 exactly when the syndrome is not 0. -/
theorem any_lowBits_syndrome (n : Nat) (c : Bits) :
    (lowBits (syndromeWidth n) (syndrome n c)).any id = errFlag (syndrome n c) := by
  rw [← Bool.not_inj_iff, Bool.eq_iff_iff]
  have hfalse : errFlag (syndrome n c) = false ↔ syndrome n c = 0 := by simp [errFlag]
  simp only [Bool.not_eq_true', hfalse, lowBits, List.any_map, List.any_eq_false, List.mem_range]
  constructor
  · intro h
    exact eq_of_testBit_lt_syndromeWidth (syndrome_lt n c) (Nat.two_pow_pos _) fun j hj => by simpa using h j hj
  · intro h
    simp [h]

theorem decNet_eq_decBlock {n : Nat} {c : Bits} (hc : c.length = n) : decNet n c = decBlock n c := by
  have hcc : (positions n).map (ccWire n c) = correct n c (syndrome n c) := by
    refine bits_ext (by simp [hc]) fun p h1 h2 => ?_
    replace h2 : p ≤ n := by simpa using h2
    rw [bitAt_map_positions _ h1 h2, ccWire_eq hc h1 h2]
  have hdata : (dataPositions n).map (ccWire n c) = extract n (correct n c (syndrome n c)) :=
    List.map_congr_left fun p hp =>
      ccWire_eq hc (mem_dataPositions.1 hp).1.1 (mem_dataPositions.1 hp).1.2
  rw [decNet, map_synWire, wordValue_lowBits_syndrome, any_lowBits_syndrome, hcc, hdata]
  rfl

/-- Settles O46: wire for wire, the trees, the decoder and the gates are the stages of the two units. -/
theorem netlistComputesTheBlock : Obligations.NetlistComputesTheBlock := by
  intro n hvalid
  have hn : 1 ≤ n := one_le_of_valid hvalid
  exact ⟨fun d hd => encNet_eq_encBlock hn hd, fun c hc => decNet_eq_decBlock hc,
    fun P hP => length_encTreePlaces hn hP⟩

end Sys2Proof.Machine
end

section
/-! PROOFS of 30_encoding.md section 3: the ports under a four-valued simulator. -/

namespace Sys2Proof.Machine

theorem levelBits_cons (l : Level) (ls : List Level) :
    levelBits (l :: ls) = (levelBit l).bind fun b => (levelBits ls).map (b :: ·) := by
  simp [levelBits, Option.map_eq_bind]

theorem levelBit_bitLevel (b : Bit) : levelBit (bitLevel b) = some b := by cases b <;> rfl

theorem levelBits_map_bitLevel (bs : Bits) : levelBits (bs.map bitLevel) = some bs := by
  induction bs with
  | nil => rfl
  | cons b bs ih => rw [List.map_cons, levelBits_cons, levelBit_bitLevel, ih, Option.bind_some, Option.map_some]

theorem length_of_levelBits_eq_some {ls : List Level} {bs : Bits} (h : levelBits ls = some bs) :
    bs.length = ls.length := by
  induction ls generalizing bs with
  | nil =>
    cases h
    rfl
  | cons l ls ih =>
    rw [levelBits_cons] at h
    obtain ⟨b, -, h⟩ := Option.bind_eq_some_iff.1 h
    obtain ⟨bs', hbs', rfl⟩ := Option.map_eq_some_iff.1 h
    rw [List.length_cons, List.length_cons, ih hbs']

/-- R54: the outputs of DEC have their widths for every block of `n` Bits, whatever stands on `enc_d_i`. -/
theorem length_port_of_block {n : Nat} {c : Bits} (hn : ValidBlockSize n) (hc : c.length = n) {p : Port}
    (hi : p ≠ .encDI) (ho : p ≠ .encCO) : ((instanceState n [] [] c).port p).length = portWidth n p := by
  have hfit : (instanceState n [] (zeros (dataCount n)) c).PortsFit :=
    State.portsFit_of_operands_fit hn (length_zeros _) hc
  exact (congrArg List.length (port_withEncDI (instanceState n [] (zeros (dataCount n)) c) [] hi ho)).trans (hfit.1 p)

section OutputsOfDec

variable {n : Nat} {dIn cIn : List Level} {p : Port} (hdi : p ≠ .encDI) (hco : p ≠ .encCO) (hci : p ≠ .decCI)
include hdi hco hci

/-- R58: two-valued levels on `dec_c_i` show the outputs of DEC. -/
theorem portLevels_of_levelBits_eq_some {c : Bits} (h : levelBits cIn = some c) :
    portLevels n dIn cIn p = ((instanceState n [] [] c).port p).map bitLevel := by
  cases p with
  | encDI => exact absurd rfl hdi
  | encCO => exact absurd rfl hco
  | decCI => exact absurd rfl hci
  | decDO | decSynO | decCcO | decErrO | decOorO => simp only [portLevels, h]

/-- Log 15: other levels give one free level per wire. -/
theorem portLevels_of_levelBits_eq_none (h : levelBits cIn = none) :
    portLevels n dIn cIn p = (List.range (portWidth n p)).map (Config.unspecifiedLevel p cIn) := by
  cases p with
  | encDI => exact absurd rfl hdi
  | encCO => exact absurd rfl hco
  | decCI => exact absurd rfl hci
  | decDO | decSynO | decCcO | decErrO | decOorO => simp only [portLevels, h]

theorem length_portLevels_dec (hn : ValidBlockSize n) (hc : cIn.length = n) :
    (portLevels n dIn cIn p).length = portWidth n p := by
  cases hlevels : levelBits cIn with
  | none => rw [portLevels_of_levelBits_eq_none hdi hco hci hlevels, List.length_map, List.length_range]
  | some c =>
    have hlen : c.length = n := (length_of_levelBits_eq_some hlevels).trans hc
    rw [portLevels_of_levelBits_eq_some hdi hco hci hlevels, List.length_map, length_port_of_block hn hlen hdi hco]

end OutputsOfDec

/-- Settles O47: levels of Bits read as the Bits, and the other levels give one free level per wire. -/
theorem twoValuedLevelsShowTheBlock : Obligations.TwoValuedLevelsShowTheBlock := by
  intro n hn
  refine ⟨fun d c p _ _ => ?twoValued, fun dIn cIn p hd hc => ?widths⟩
  case twoValued =>
    cases p with
    | encDI | decCI => rfl
    | encCO => simp only [portLevels, levelBits_map_bitLevel, State.port_encCO, State.encCO_eq, instanceState_n,
        instanceState_encDI]
    | decDO | decSynO | decCcO | decErrO | decOorO =>
      exact portLevels_of_levelBits_eq_some (by decide) (by decide) (by decide) (levelBits_map_bitLevel c)
  case widths =>
    cases p with
    | encDI => exact hd
    | decCI => exact hc
    | encCO => cases hlevels : levelBits dIn <;> simp [portLevels, hlevels, portWidth]
    | decDO | decSynO | decCcO | decErrO | decOorO =>
      exact length_portLevels_dec (by decide) (by decide) (by decide) hn hc

end Sys2Proof.Machine
end

section
/-! PROOFS of 42_stream_ops.md section 4: a block as a line of characters. -/

namespace Sys2Proof.Machine

@[simp] theorem length_printBlk (c : Bits) : (printBlk c).length = c.length := by simp [printBlk]

theorem bitChar_eq_zero_or_one (b : Bit) : bitChar b = '0' ∨ bitChar b = '1' := by cases b <;> simp [bitChar]

theorem mem_printBlk {c : Bits} {ch : Char} (h : ch ∈ printBlk c) : ch = '0' ∨ ch = '1' := by
  obtain ⟨b, -, rfl⟩ := List.mem_map.1 h
  exact bitChar_eq_zero_or_one b

/-- R112, R118: a printed block is a block line of its length. -/
theorem isBlockLine_printBlk {n : Nat} {c : Bits} (hc : c.length = n) : isBlockLine n (printBlk c) = true :=
  isBlockLine_eq_true.2 ⟨(length_printBlk c).trans hc, fun _ h => mem_printBlk h⟩

@[simp] theorem lineBits_printBlk (c : Bits) : lineBits (printBlk c) = c := by
  have hchar : ((fun ch => ch == '1') ∘ bitChar) = id := funext fun b => by cases b <;> rfl
  rw [lineBits, printBlk, List.map_map, hchar, List.map_id]

@[simp] theorem length_lineBits (line : List Char) : (lineBits line).length = line.length := by simp [lineBits]

theorem printBlk_lineBits {line : List Char} (h : ∀ ch ∈ line, ch = '0' ∨ ch = '1') :
    printBlk (lineBits line) = line := by
  have hchar : ∀ ch ∈ line, (bitChar ∘ fun ch => ch == '1') ch = id ch := fun ch hch => by
    rcases h ch hch with rfl | rfl <;> rfl
  rw [printBlk, lineBits, List.map_map, List.map_congr_left hchar, List.map_id]

theorem parseBlk_of_blockLine {n : Nat} (index : Nat) {line : List Char} (h : isBlockLine n line = true) :
    parseBlk n index line = .next (lineBits line) := if_pos h

/-- Settles O48: printing and reading are inverse on the Bits and on the two characters. -/
theorem linesCarryBlocksExactly : Obligations.LinesCarryBlocksExactly := by
  refine ⟨fun c index => ⟨length_printBlk c, fun p h1 h2 => ?character, ?readBack⟩,
    fun n index line => ⟨fun h => ?accepted, fun h => ?refused⟩⟩
  case character =>
    rw [printBlk, List.getElem?_map, getElem?_eq_bitAt h1 h2]
    rfl
  case readBack => rw [parseBlk_of_blockLine index (isBlockLine_printBlk rfl), lineBits_printBlk]
  case accepted =>
    exact ⟨lineBits line, parseBlk_of_blockLine index (isBlockLine_eq_true.2 h), (length_lineBits line).trans h.1,
      printBlk_lineBits h.2⟩
  case refused => exact if_neg (isBlockLine_eq_true.not.2 h)

end Sys2Proof.Machine
end

section
/-! PROOFS of 30_encoding.md section 4: a written operation reads back. -/

namespace Sys2Proof.Machine

theorem takeWhile_append_cons {α : Type} {p : α → Bool} {l : List α} (hl : ∀ x ∈ l, p x = true) {a : α}
    (ha : p a = false) (r : List α) : (l ++ a :: r).takeWhile p = l := by
  rw [List.takeWhile_append_of_pos hl, List.takeWhile_cons_of_neg (by simp [ha]), List.append_nil]

theorem dropWhile_append_cons {α : Type} {p : α → Bool} {l : List α} (hl : ∀ x ∈ l, p x = true) {a : α}
    (ha : p a = false) (r : List α) : (l ++ a :: r).dropWhile p = a :: r := by
  rw [List.dropWhile_append_of_pos hl, List.dropWhile_cons_of_neg (by simp [ha])]

/-- A decimal digit as a character and back. -/
theorem digitChar_spec {d : Nat} (hd : d < 10) :
    (Nat.digitChar d).isDigit = true ∧ (Nat.digitChar d).toNat - 48 = d := by
  interval_cases d <;> decide

theorem decimal_of_pos {n : Nat} (hn : 1 ≤ n) : decimal n = (Nat.digits 10 n).reverse.map Nat.digitChar :=
  if_neg (Nat.ne_of_gt hn)

theorem isDigit_of_mem_decimal {n : Nat} (hn : 1 ≤ n) {ch : Char} (h : ch ∈ decimal n) : ch.isDigit = true := by
  rw [decimal_of_pos hn] at h
  obtain ⟨d, hd, rfl⟩ := List.mem_map.1 h
  exact (digitChar_spec (Nat.digits_lt_base (by decide) (List.mem_reverse.1 hd))).1

theorem ne_of_mem_decimal {n : Nat} (hn : 1 ≤ n) {ch x : Char} (h : ch ∈ decimal n) (hx : x.isDigit = false) :
    ch ≠ x := by
  rintro rfl
  rw [isDigit_of_mem_decimal hn h] at hx
  cases hx

/-- Reading digits from the most significant one on adds up their weights. -/
theorem foldl_digitChar (L : List Nat) (hL : ∀ d ∈ L, d < 10) :
    (L.reverse.map Nat.digitChar).foldl (fun a ch => 10 * a + (ch.toNat - 48)) 0 = Nat.ofDigits 10 L := by
  induction L with
  | nil => rfl
  | cons d L ih =>
    obtain ⟨hd, hL⟩ := List.forall_mem_cons.1 hL
    rw [List.reverse_cons, List.map_append, List.foldl_append, ih hL, Nat.ofDigits_cons]
    simp [(digitChar_spec hd).2, Nat.add_comm]

theorem decimalValue_decimal {n : Nat} (hn : 1 ≤ n) : decimalValue (decimal n) = some n := by
  have hne : (decimal n).isEmpty = false := by simp [decimal_of_pos hn, Nat.digits_ne_nil_iff_ne_zero, Nat.ne_of_gt hn]
  have hall : (decimal n).all Char.isDigit = true := List.all_eq_true.2 fun _ h => isDigit_of_mem_decimal hn h
  rw [decimalValue, hne, hall, decimal_of_pos hn,
    foldl_digitChar _ fun d hd => Nat.digits_lt_base (by decide) hd, Nat.ofDigits_digits]
  rfl

/-- R17, R61: the quoted operand reads back as the operand of the tag's operation. -/
theorem readOperand_quoted {n : Nat} {i : Instr} (h : i.wf n = true) :
    readOperand n i.tag (' ' :: quoted i.operand) = .next (n, i) := by
  have hchars : ∀ ch ∈ printBlk i.operand, (ch != '"') = true := fun ch hch => by
    rcases mem_printBlk hch with rfl | rfl <;> rfl
  have hline : isBlockLine (portWidth n (ofTag i.tag []).inputPort) (printBlk i.operand) = true := by
    rw [← inputPort_ofTag i.tag i.operand, ofTag_tag_operand]
    exact isBlockLine_printBlk (wf_iff.1 h)
  have htake := takeWhile_append_cons hchars (a := '"') rfl []
  have hdrop := dropWhile_append_cons hchars (a := '"') rfl []
  simp [readOperand, quoted, htake, hdrop, hline, ofTag_tag_operand]

/-- R61: the size reads back, up to the comma, and then the operand. -/
theorem readSizeAndOperand_decimal {n : Nat} {i : Instr} (hn : ValidBlockSize n) (h : i.wf n = true) :
    readSizeAndOperand i.tag (decimal n ++ ',' :: ' ' :: quoted i.operand) = .next (n, i) := by
  have h1 : 1 ≤ n := one_le_of_valid hn
  have hdigits : ∀ ch ∈ decimal n, (ch != ',') = true := fun ch hch =>
    bne_iff_ne.2 (ne_of_mem_decimal h1 hch (by decide))
  have hblank : (decimal n ++ ',' :: ' ' :: quoted i.operand).dropWhile (· == ' ') =
      decimal n ++ ',' :: ' ' :: quoted i.operand := by
    cases hdec : decimal n with
    | nil => rfl
    | cons ch ds =>
      have hne : ch ≠ ' ' := ne_of_mem_decimal h1 (hdec ▸ List.mem_cons_self) (by decide)
      rw [List.cons_append, List.dropWhile_cons_of_neg (by simpa using hne)]
  have htake := takeWhile_append_cons hdigits (a := ',') rfl (' ' :: quoted i.operand)
  have hdrop := dropWhile_append_cons hdigits (a := ',') rfl (' ' :: quoted i.operand)
  simp only [readSizeAndOperand, hblank, htake, hdrop, decimalValue_decimal h1]
  rw [withBlockSize_valid hn, readOperand_quoted h]

/-- Settles O49: the mnemonic selects the tag, and then size and operand read back. -/
theorem notationReadsBack : Obligations.NotationReadsBack := by
  intro n i hn h
  cases i with
  | enc d => exact readSizeAndOperand_decimal hn h
  | dec c => exact readSizeAndOperand_decimal hn h

end Sys2Proof.Machine
end

section
/-! PROOFS of 42_stream_ops.md section 2: the groups of a Bitstream. -/

namespace Sys2Proof.Machine

/-- The first `q` pieces of `k` Bits of a sequence, the last ones shorter or empty when it ends before. -/
def chunks (k q : Nat) (B : Bits) : List Bits := (List.range q).map fun g => (B.drop (g * k)).take k

@[simp] theorem length_chunks (k q : Nat) (B : Bits) : (chunks k q B).length = q := by simp [chunks]

theorem chunks_succ (k q : Nat) (B : Bits) : chunks k (q + 1) B = B.take k :: chunks k q (B.drop k) := by
  simp [chunks, List.range_succ_eq_map, Nat.succ_mul, Nat.add_comm]

/-- Pieces that were put together are the first pieces of the whole. -/
theorem chunks_flatten_append {k : Nat} {L : List Bits} (hL : ∀ c ∈ L, c.length = k) (q : Nat) (z : Bits) :
    chunks k (L.length + q) (L.flatten ++ z) = L ++ chunks k q z := by
  induction L with
  | nil => simp
  | cons c L ih =>
    obtain ⟨rfl, hL⟩ := List.forall_mem_cons.1 hL
    rw [List.length_cons, Nat.succ_add, chunks_succ, List.flatten_cons, List.append_assoc, List.take_left,
      List.drop_left, ih hL, List.cons_append]

theorem chunks_flatten {k : Nat} {L : List Bits} (hL : ∀ c ∈ L, c.length = k) : chunks k L.length L.flatten = L := by
  have h := chunks_flatten_append hL 0 []
  rwa [Nat.add_zero, List.append_nil, show chunks k 0 [] = [] from rfl, List.append_nil] at h

/-- A sequence of `q * k` Bits is whole pieces, which together are the sequence. -/
theorem chunks_of_length_eq {k q : Nat} {B : Bits} (hB : B.length = q * k) :
    (∀ c ∈ chunks k q B, c.length = k) ∧ (chunks k q B).flatten = B := by
  induction q generalizing B with
  | zero =>
    obtain rfl : B = [] := List.length_eq_zero_iff.1 (hB.trans (Nat.zero_mul k))
    simp [chunks]
  | succ q ih =>
    rw [Nat.succ_mul] at hB
    obtain ⟨hlen, hflat⟩ := ih (B := B.drop k) (by rw [List.length_drop]; omega)
    rw [chunks_succ]
    refine ⟨List.forall_mem_cons.2 ⟨by rw [List.length_take]; omega, hlen⟩, ?_⟩
    rw [List.flatten_cons, hflat, List.take_append_drop]

/-- R18: the quotient rounded up is the least number of divisors that reach the dividend. -/
theorem ceilDiv_eq {a k G : Nat} (hlo : a ≤ G * k) (hhi : G * k < a + k) : ceilDiv a k = G :=
  Nat.div_eq_of_lt_le (by omega) (by rw [Nat.succ_mul]; omega)

/-- R97, R100: the pad Bits fill the last group, and they are fewer than a group. -/
theorem length_add_padCount {n : Nat} (hn : ValidBlockSize n) (L : Nat) :
    L + padCount n L = groupCount n L * dataCount n ∧ padCount n L < dataCount n := by
  have hk := dataCount_pos hn
  have hL := Nat.div_add_mod' L (dataCount n)
  have hmod := Nat.mod_lt L hk
  refine ⟨?_, Nat.mod_lt _ hk⟩
  rcases Nat.eq_zero_or_pos (L % dataCount n) with hzero | hpos
  · have hceil : groupCount n L = L / dataCount n := ceilDiv_eq (by omega) (by omega)
    rw [padCount, hceil, hzero, Nat.sub_zero, Nat.mod_self]
    omega
  · have hceil : groupCount n L = L / dataCount n + 1 :=
      ceilDiv_eq (by rw [Nat.succ_mul]; omega) (by rw [Nat.succ_mul]; omega)
    rw [padCount, hceil, Nat.mod_eq_of_lt (by omega), Nat.succ_mul]
    omega

/-- R98, R99: group `g + 1` starts after `g` groups and has `k` Bits as far as the Bitstream reaches. -/
theorem rawGroup_succ (n : Nat) (B : Bits) (g : Nat) :
    rawGroup n B (g + 1) = (B.drop (g * dataCount n)).take (dataCount n) := by
  rw [rawGroup, subseq, Nat.add_sub_cancel, Nat.add_sub_cancel, List.take_eq_take_iff, List.length_drop, Nat.succ_mul]
  omega

/-- R100: right-padding a piece is cutting it out of the padded sequence. -/
theorem padGroup_take_drop {n p g : Nat} {B : Bits} (hg : g * dataCount n ≤ B.length)
    (hp : (g + 1) * dataCount n ≤ B.length + p) :
    padGroup n ((B.drop (g * dataCount n)).take (dataCount n)) =
      ((B ++ zeros p).drop (g * dataCount n)).take (dataCount n) := by
  rw [Nat.succ_mul] at hp
  rw [padGroup, List.drop_append_of_le_length hg, List.take_append, zeros, zeros, List.take_replicate,
    List.length_take, List.length_drop]
  congr 2
  omega

/-- R98 to R100: the padded groups are the pieces of the padded Bitstream. -/
theorem dataGroups_eq_chunks {n : Nat} (hn : ValidBlockSize n) (B : Bits) :
    dataGroups n B = chunks (dataCount n) (groupCount n B.length) (B ++ zeros (padCount n B.length)) := by
  obtain ⟨hsum, hpad⟩ := length_add_padCount hn B.length
  rw [dataGroups, List.range'_eq_map_range, List.map_map, chunks]
  refine List.map_congr_left fun g hg => ?_
  have hlast : (g + 1) * dataCount n ≤ groupCount n B.length * dataCount n :=
    Nat.mul_le_mul_right _ (List.mem_range.1 hg)
  have hstart : g * dataCount n ≤ B.length := by
    rw [Nat.succ_mul] at hlast
    omega
  rw [Function.comp_apply, Nat.add_comm 1 g, rawGroup_succ, padGroup_take_drop hstart (hsum ▸ hlast)]

theorem length_append_zeros {n : Nat} (hn : ValidBlockSize n) (B : Bits) :
    (B ++ zeros (padCount n B.length)).length = groupCount n B.length * dataCount n := by
  rw [List.length_append, length_zeros, (length_add_padCount hn B.length).1]

theorem length_of_mem_dataGroups {n : Nat} (hn : ValidBlockSize n) {B grp : Bits} (h : grp ∈ dataGroups n B) :
    grp.length = dataCount n := by
  rw [dataGroups_eq_chunks hn] at h
  exact (chunks_of_length_eq (length_append_zeros hn B)).1 grp h

theorem flatten_dataGroups {n : Nat} (hn : ValidBlockSize n) (B : Bits) :
    (dataGroups n B).flatten = B ++ zeros (padCount n B.length) := by
  rw [dataGroups_eq_chunks hn, (chunks_of_length_eq (length_append_zeros hn B)).2]

@[simp] theorem length_dataGroups (n : Nat) (B : Bits) : (dataGroups n B).length = groupCount n B.length := by
  simp [dataGroups]

theorem length_flatten_map_encBlock (n : Nat) (groups : List Bits) :
    (groups.map (encBlock n)).flatten.length = groups.length * n := by
  induction groups with
  | nil => simp
  | cons grp groups ih => simp [ih, Nat.succ_mul, Nat.add_comm]

/-- Settles O50: the groups are the pieces of the padded Bitstream, and one group fewer is shorter than it. -/
theorem encStreamEncodesConsecutiveGroups : Obligations.EncStreamEncodesConsecutiveGroups := by
  intro n B hn
  obtain ⟨hsum, hpad⟩ := length_add_padCount hn B.length
  refine ⟨dataGroups n B, encStream_valid hn B, fun grp => length_of_mem_dataGroups hn, flatten_dataGroups hn B, hpad,
    ?enough, fun G hG => ?least, length_flatten_map_encBlock n _⟩
  case enough =>
    rw [length_dataGroups]
    omega
  case least =>
    rw [length_dataGroups]
    refine Nat.le_of_lt_succ (Nat.lt_of_mul_lt_mul_right (a := dataCount n) ?_)
    rw [Nat.succ_mul]
    omega

end Sys2Proof.Machine
end

section
/-! PROOFS of 42_stream_ops.md sections 3 and 5: encoding, flipping and decoding a Bitstream. -/

namespace Sys2Proof.Machine

theorem isBlockLine_of_mem_map_printBlk {n : Nat} {Q : List Bits} (hQ : ∀ c ∈ Q, c.length = n) :
    ∀ line ∈ Q.map printBlk, isBlockLine n line = true := by
  intro line hline
  obtain ⟨c, hc, rfl⟩ := List.mem_map.1 hline
  exact isBlockLine_printBlk (hQ c hc)

/-- R105: blocks handed over as lines are decoded one by one. -/
theorem decRun_map_printBlk {n : Nat} (hn : ValidBlockSize n) {Q : List Bits} (hQ : ∀ c ∈ Q, c.length = n) :
    decRun n (Q.map printBlk) = .next (Q.map (decBlock n)) := by
  rw [decRun_of_wellFormed hn (isBlockLine_of_mem_map_printBlk hQ), List.map_map]
  simp [Function.comp_def]

theorem decStream_eq_of_decRun {n : Nat} {Q : List (List Char)} {rs : List DecResult} (h : decRun n Q = .next rs) :
    decStream n Q = .next (rs.map DecResult.data).flatten := by
  rw [decStream, h, andThen_next, List.flatMap_def]

/-- The results of DEC on the code word of `d` with a flip at `i` (R88). -/
def flipResult (n : Nat) (d : Bits) (i : Nat) : DecResult :=
  { data := d, syn := i, cc := encBlock n d, err := true, oor := false }

theorem decBlock_flipAt_encBlock {n i : Nat} (hn : 1 ≤ n) {d : Bits} (hd : d.length = dataCount n) (h1 : 1 ≤ i)
    (h2 : i ≤ n) : decBlock n (flipAt (encBlock n d) i) = flipResult n d i := by
  rw [(validCodeWord_encBlock hn d).decBlock_flipAt h1 h2, decBlock_encBlock hn hd, flipResult]

/-- R114: FLIP of every block at its own position. -/
def flipEach (Q : List Bits) (flips : List Nat) : List Bits := List.zipWith flipAt Q flips

theorem flipBlk_inside {c : Bits} {i : Nat} (h1 : 1 ≤ i) (h2 : i ≤ c.length) : flipBlk c i = .next (flipAt c i) :=
  if_pos ⟨h1, h2⟩

theorem flipBlk_outside {c : Bits} {i : Nat} (h : i = 0 ∨ c.length < i) :
    flipBlk c i = .refused (.flipPositionOutside i c.length) :=
  if_neg (by omega)

theorem inject_of_length_eq {Q : List Bits} {flips : List Nat} (h : Q.length = flips.length) :
    inject Q flips = injectEach Q flips := if_pos h

/-- R114: with one position in range per block the injector flips each block. -/
theorem inject_eq_flipEach {Q : List Bits} {flips : List Nat} (hlen : Q.length = flips.length)
    (hin : ∀ (g : Nat) (c : Bits) (i : Nat), Q[g]? = some c → flips[g]? = some i → 1 ≤ i ∧ i ≤ c.length) :
    inject Q flips = .next (flipEach Q flips) := by
  rw [inject_of_length_eq hlen]
  induction Q generalizing flips with
  | nil => rfl
  | cons c Q ih =>
    cases flips with
    | nil => cases hlen
    | cons i flips =>
      obtain ⟨h1, h2⟩ := hin 0 c i rfl rfl
      have hrest := ih (Nat.succ.inj hlen) fun g c' i' hc hi => hin (g + 1) c' i' hc hi
      rw [injectEach, flipBlk_inside h1 h2, andThen_next, hrest, andThen_next]
      rfl

/-- U10: the first block whose position is outside decides the refusal. -/
theorem inject_refused {Q : List Bits} {flips : List Nat} {g : Nat} {c : Bits} {i : Nat}
    (hlen : Q.length = flips.length) (hc : Q[g]? = some c) (hi : flips[g]? = some i) (hout : i = 0 ∨ c.length < i)
    (hin : ∀ (g' : Nat) (c' : Bits) (i' : Nat), g' < g → Q[g']? = some c' → flips[g']? = some i' →
      1 ≤ i' ∧ i' ≤ c'.length) :
    inject Q flips = .refused (.flipPositionOutside i c.length) := by
  rw [inject_of_length_eq hlen]
  induction Q generalizing flips g with
  | nil => simp at hc
  | cons c₀ Q ih =>
    cases flips with
    | nil => cases hlen
    | cons i₀ flips =>
      cases g with
      | zero =>
        obtain rfl : c₀ = c := Option.some.inj hc
        obtain rfl : i₀ = i := Option.some.inj hi
        rw [injectEach, flipBlk_outside hout, andThen_refused]
      | succ g =>
        obtain ⟨h1, h2⟩ := hin 0 c₀ i₀ (Nat.succ_pos g) rfl rfl
        have hrest := ih (Nat.succ.inj hlen) hc hi fun g' c' i' hg => hin (g' + 1) c' i' (Nat.succ_lt_succ hg)
        rw [injectEach, flipBlk_inside h1 h2, andThen_next, hrest, andThen_refused]

/-- Settles O58: FLIP is `flipAt` inside the block, and INJECT applies it block by block up to the first refusal. -/
theorem flipInvertsExactlyOnePosition : Obligations.FlipInvertsExactlyOnePosition := by
  refine ⟨fun c i h1 h2 => ?inside, fun c i h => flipBlk_outside h, fun Q flips hlen hin => ?injected,
    fun Q flips g c i hlen hc hi hout hin => inject_refused hlen hc hi hout hin, fun Q flips hlen => if_neg hlen⟩
  case inside =>
    refine ⟨flipAt c i, flipBlk_inside h1 h2, length_flipAt c i, bitAt_flipAt_self h1 h2,
      fun p _ _ hp => bitAt_flipAt_ne hp, ?_⟩
    rw [flipBlk_inside h1 (by rwa [length_flipAt]), flipAt_flipAt]
  case injected =>
    refine ⟨_, inject_eq_flipEach hlen hin, by simp [flipEach, hlen], fun g c i hc hi => ?_⟩
    exact List.getElem?_zipWith_eq_some.2 ⟨c, i, hc, hi, rfl⟩

theorem length_of_mem_map_encBlock {n : Nat} {groups : List Bits} : ∀ c ∈ groups.map (encBlock n), c.length = n := by
  intro c hc
  obtain ⟨d, -, rfl⟩ := List.mem_map.1 hc
  exact length_encBlock n d

theorem length_of_mem_flipEach {n : Nat} {Q : List Bits} {flips : List Nat} (hQ : ∀ c ∈ Q, c.length = n) :
    ∀ c ∈ flipEach Q flips, c.length = n := by
  intro c hc
  obtain ⟨i, hi, rfl⟩ := List.mem_iff_getElem.1 hc
  simp [flipEach, hQ]

section OneFlipPerBlock

variable {n : Nat} {groups : List Bits} {flips : List Nat} (hflips : ∀ i ∈ flips, 1 ≤ i ∧ i ≤ n)
  (hlen : flips.length = groups.length)

include hlen in
theorem map_data_zipWith_flipResult : (List.zipWith (flipResult n) groups flips).map DecResult.data = groups :=
  List.ext_getElem (by simp [hlen]) fun _ _ _ => by simp [flipResult]

include hlen in
theorem map_syn_zipWith_flipResult : (List.zipWith (flipResult n) groups flips).map DecResult.syn = flips :=
  List.ext_getElem (by simp [hlen]) fun _ _ _ => by simp [flipResult]

theorem status_of_mem_zipWith_flipResult :
    ∀ r ∈ List.zipWith (flipResult n) groups flips, r.err = true ∧ r.oor = false := by
  intro r hr
  obtain ⟨g, hg, rfl⟩ := List.mem_iff_getElem.1 hr
  simp [flipResult]

include hflips

include hlen in
theorem inject_map_encBlock :
    inject (groups.map (encBlock n)) flips = .next (flipEach (groups.map (encBlock n)) flips) := by
  refine inject_eq_flipEach (by rw [List.length_map, hlen]) fun g c i hc hi => ?_
  rw [length_of_mem_map_encBlock c (List.mem_of_getElem? hc)]
  exact hflips i (List.mem_of_getElem? hi)

/-- R88, R115: DEC of every block with its own flip. -/
theorem map_decBlock_flipEach (hn : ValidBlockSize n) (hgroups : ∀ grp ∈ groups, grp.length = dataCount n) :
    (flipEach (groups.map (encBlock n)) flips).map (decBlock n) = List.zipWith (flipResult n) groups flips := by
  refine List.ext_getElem (by simp [flipEach]) fun g h1 h2 => ?_
  have hg : g < groups.length ∧ g < flips.length := by simpa using h2
  obtain ⟨hi1, hi2⟩ := hflips _ (List.getElem_mem hg.2)
  simp only [flipEach, List.getElem_map, List.getElem_zipWith]
  exact decBlock_flipAt_encBlock (one_le_of_valid hn) (hgroups _ (List.getElem_mem hg.1)) hi1 hi2

end OneFlipPerBlock

theorem straightLine_eq {n : Nat} (hn : ValidBlockSize n) (B : Bits) (inj : Option (List Nat)) :
    straightLine n B inj = andThen (injectMaybe ((dataGroups n B).map (encBlock n)) inj) fun Q =>
      decStream n (Q.map printBlk) := by
  rw [straightLine, encStream_valid hn, andThen_next]

/-- R89, block by block: the straight line without injector. -/
theorem straightLine_none {n : Nat} (hn : ValidBlockSize n) (B : Bits) :
    straightLine n B none = .next (B ++ zeros (padCount n B.length)) := by
  have hdata : ((dataGroups n B).map (encBlock n)).map (DecResult.data ∘ decBlock n) = dataGroups n B := by
    rw [List.map_map]
    refine (List.map_congr_left fun grp hgrp => ?_).trans (List.map_id _)
    exact congrArg DecResult.data
      (decBlock_encBlock (one_le_of_valid hn) (length_of_mem_dataGroups hn hgrp))
  rw [straightLine_eq hn, injectMaybe, andThen_next,
    decStream_eq_of_decRun (decRun_map_printBlk hn length_of_mem_map_encBlock), List.map_map, hdata,
    flatten_dataGroups hn]

/-- R115: the run of DEC over the blocks of a Bitstream, each with its own flip. -/
theorem decRun_flipEach {n : Nat} (hn : ValidBlockSize n) (B : Bits) {flips : List Nat}
    (hflips : ∀ i ∈ flips, 1 ≤ i ∧ i ≤ n) :
    decRun n ((flipEach ((dataGroups n B).map (encBlock n)) flips).map printBlk) =
      .next (List.zipWith (flipResult n) (dataGroups n B) flips) := by
  rw [decRun_map_printBlk hn (length_of_mem_flipEach length_of_mem_map_encBlock),
    map_decBlock_flipEach hflips hn fun _ => length_of_mem_dataGroups hn]

theorem straightLine_some {n : Nat} (hn : ValidBlockSize n) (B : Bits) {flips : List Nat}
    (hlen : flips.length = groupCount n B.length) (hflips : ∀ i ∈ flips, 1 ≤ i ∧ i ≤ n) :
    straightLine n B (some flips) = .next (B ++ zeros (padCount n B.length)) := by
  have hlen' : flips.length = (dataGroups n B).length := hlen.trans (length_dataGroups n B).symm
  rw [straightLine_eq hn, injectMaybe, inject_map_encBlock hflips hlen', andThen_next,
    decStream_eq_of_decRun (decRun_flipEach hn B hflips), map_data_zipWith_flipResult hlen', flatten_dataGroups hn]

/-- Settles O53: every group comes back, and together they are the padded Bitstream. -/
theorem streamRoundTrip : Obligations.StreamRoundTrip := by
  intro n B hn
  exact ⟨straightLine_none hn B, (length_add_padCount hn B.length).2, List.take_left⟩

/-- Settles O54: each block with one flip decodes to its group and reports the flip. -/
theorem streamSurvivesOneFlipPerBlock : Obligations.StreamSurvivesOneFlipPerBlock := by
  intro n B flips hn hlen hflips
  have hlen' : flips.length = (dataGroups n B).length := hlen.trans (length_dataGroups n B).symm
  exact ⟨straightLine_some hn B hlen hflips, _, _, _, encStream_valid hn B, inject_map_encBlock hflips hlen',
    decRun_flipEach hn B hflips, map_syn_zipWith_flipResult hlen', status_of_mem_zipWith_flipResult⟩

end Sys2Proof.Machine
end

section
/-! PROOFS of 42_stream_ops.md sections 1 to 3, 41_decoder.md section 4: splitting streams, sizes that do not match,
and the operations a stream expands to. -/

namespace Sys2Proof.Machine

/-- R99, R100: whole groups at the front take their own number of groups and change no padding. -/
theorem groupCount_add {n q : Nat} (hn : ValidBlockSize n) (L : Nat) :
    groupCount n (q * dataCount n + L) = q + groupCount n L ∧ padCount n (q * dataCount n + L) = padCount n L := by
  have hpad : padCount n (q * dataCount n + L) = padCount n L := by
    rw [padCount, padCount, Nat.mul_add_mod']
  refine ⟨Nat.eq_of_mul_eq_mul_right (dataCount_pos hn) ?_, hpad⟩
  have hwhole := (length_add_padCount hn (q * dataCount n + L)).1
  have hrest := (length_add_padCount hn L).1
  rw [Nat.add_mul]
  omega

theorem dataGroups_append_of_length {n q : Nat} (hn : ValidBlockSize n) {B : Bits} (hB : B.length = q * dataCount n)
    (B' : Bits) : dataGroups n (B ++ B') = chunks (dataCount n) q B ++ dataGroups n B' := by
  obtain ⟨hpieces, hflat⟩ := chunks_of_length_eq hB
  obtain ⟨hcount, hpad⟩ := groupCount_add hn (q := q) B'.length
  have happend := chunks_flatten_append hpieces (groupCount n B'.length) (B' ++ zeros (padCount n B'.length))
  rw [dataGroups_eq_chunks hn, dataGroups_eq_chunks hn, List.length_append, hB, hcount, hpad, List.append_assoc]
  rwa [length_chunks, hflat] at happend

/-- R99: whole groups at the front leave the grouping of the rest as it is. -/
theorem dataGroups_append {n : Nat} (hn : ValidBlockSize n) {B : Bits} (hB : dataCount n ∣ B.length) (B' : Bits) :
    dataGroups n (B ++ B') = dataGroups n B ++ dataGroups n B' := by
  obtain ⟨q, hq⟩ := hB
  have hlen : B.length = q * dataCount n := hq.trans (Nat.mul_comm _ _)
  have hfront := dataGroups_append_of_length hn hlen []
  rw [List.append_nil, dataGroups_nil hn, List.append_nil] at hfront
  rw [dataGroups_append_of_length hn hlen, hfront]

/-- A run over candidates completes only when every candidate is a block. -/
theorem decStream_eq_next {n : Nat} (hn : ValidBlockSize n) {Q : List (List Char)} {out : Bits}
    (h : decStream n Q = .next out) :
    (∀ line ∈ Q, isBlockLine n line = true) ∧ out = (Q.map fun line => (decBlock n (lineBits line)).data).flatten := by
  cases hfirst : firstMalformed n Q with
  | some g =>
    rw [decStream_of_malformed hn hfirst] at h
    cases h
  | none =>
    have hgood := isBlockLine_of_firstMalformed_eq_none hfirst
    rw [decStream_of_wellFormed hn hgood] at h
    cases h
    exact ⟨hgood, rfl⟩

/-- Settles O55: group boundaries and block boundaries stay where they are. -/
theorem streamsSplitAtBlockBoundaries : Obligations.StreamsSplitAtBlockBoundaries := by
  intro n hn
  refine ⟨fun B B' Q Q' hB hQ hQ' => ?encode, fun Q Q' out out' hout hout' => ?decode⟩
  case encode =>
    rw [encStream_valid hn] at hQ hQ' ⊢
    cases hQ
    cases hQ'
    rw [dataGroups_append hn hB, List.map_append]
  case decode =>
    obtain ⟨hQ, rfl⟩ := decStream_eq_next hn hout
    obtain ⟨hQ', rfl⟩ := decStream_eq_next hn hout'
    rw [decStream_of_wellFormed hn (List.forall_mem_append.2 ⟨hQ, hQ'⟩), List.map_append, List.flatten_append]

theorem ceilDiv_mul_self {k : Nat} (hk : 0 < k) (q : Nat) : ceilDiv (q * k) k = q :=
  ceilDiv_eq le_rfl (by omega)

/-- Settles O56: the length of a line or an operand is all that tells the sizes apart, and a flat sequence that `n'`
divides is cut into blocks of `n'` Bits. -/
theorem mismatchedSizeIsCaughtOnlyByLength : Obligations.MismatchedSizeIsCaughtOnlyByLength := by
  intro n n' hn hn' hne
  refine ⟨fun Q hQ hlen => ?lines, fun s c hs hc => ?operand, fun flat hflat => ?recut⟩
  case lines =>
    obtain ⟨c, Q, rfl⟩ := List.exists_cons_of_ne_nil hQ
    have hc : c.length = n := hlen c List.mem_cons_self
    have hbad : isBlockLine n' (printBlk c) = false := by
      simp [isBlockLine, hc, hne]
    exact decStream_of_malformed hn' (firstMalformed_eq_some (g := 0) (by simp) hbad fun _ h => absurd h (by omega))
  case operand =>
    subst hs hc
    exact exec_misfit (i := .dec c) hn' hne
  case recut =>
    obtain ⟨q, hq⟩ := hflat
    have hlen : flat.length = q * n' := hq.trans (Nat.mul_comm n' q)
    have hcut : cutFlat n' flat = chunks n' q flat := by
      rw [cutFlat, hlen, ceilDiv_mul_self (by omega), chunks]
    rw [hcut]
    exact ⟨_, decStream_eq_of_decRun (decRun_map_printBlk hn' (chunks_of_length_eq hlen).1)⟩

theorem wf_enc {n : Nat} {d : Bits} : (Instr.enc d).wf n = true ↔ d.length = dataCount n := wf_iff
theorem wf_dec {n : Nat} {c : Bits} : (Instr.dec c).wf n = true ↔ c.length = n := wf_iff

theorem present_enc_encCO (s : State) (d : Bits) : (present s (.enc d)).encCO = encBlock s.n d := rfl
theorem present_dec_decDO (s : State) (c : Bits) : (present s (.dec c)).decDO = (decBlock s.n c).data := rfl

/-- With one operation issued per entry of a list, `g + 1` steps leave the operand of entry `g` (from 0) on the port of
its unit. -/
theorem run_issued_entry {α : Type} {op : α → Instr} {xs : List α} {s : State} {g : Nat} (hn : ValidBlockSize s.n)
    (hops : ∀ x ∈ xs, (op x).wf s.n = true) (hq : s.issue = xs.map fun x => encode (op x)) (hg : g < xs.length) :
    ∃ u : State, u.n = s.n ∧ Host.Core.run Sys2Proof.core (g + 1) s = .next (present u (op xs[g])) := by
  have hsplit : xs = xs.take g ++ [xs[g]] ++ xs.drop (g + 1) := by simp
  have hissue : s.issue = ((xs.take g).map op ++ [op xs[g]]).map encode ++ (xs.drop (g + 1)).map (encode ∘ op) := by
    refine (hq.trans (congrArg (List.map fun x => encode (op x)) hsplit)).trans ?_
    simp only [List.map_append, List.map_map, List.map_singleton]
    rfl
  have hearlier : ∀ e ∈ (xs.take g).map op, e.wf s.n = true :=
    List.forall_mem_map.2 fun x hx => hops x (List.mem_of_mem_take hx)
  obtain ⟨u, hu, -, hrun⟩ := run_issued_last _ _ hn hearlier (hops _ (List.getElem_mem hg)) hissue
  rw [List.length_map, List.length_take_of_le hg.le] at hrun
  exact ⟨u, hu, hrun⟩

/-- Group `g` (from 0) of decoded groups put together is `s[g * k + 1 .. (g + 1) * k]`. -/
theorem subseq_flatten {k g : Nat} {L : List Bits} (hL : ∀ c ∈ L, c.length = k) (hg : g < L.length) :
    subseq L.flatten (g * k + 1) ((g + 1) * k) = L[g] := by
  have hchunk : (chunks k L.length L.flatten)[g]'(by simpa using hg) = L[g] := by simp only [chunks_flatten hL]
  rw [← hchunk, subseq]
  simp [chunks, Nat.succ_mul]

/-- Settles O57: step `g + 1` runs the operation of block or group `g`. -/
theorem streamOperationsExpandToSteps : Obligations.StreamOperationsExpandToSteps := by
  intro s hn
  refine ⟨fun B Q hQ hq g hg => ?encode, fun Q out hout hq g hg => ?decode⟩
  case encode =>
    rw [encStream_valid hn] at hQ
    cases hQ
    rw [List.length_map] at hg
    obtain ⟨u, hu, hrun⟩ := run_issued_entry hn (fun grp hgrp => wf_enc.2 (length_of_mem_dataGroups hn hgrp)) hq hg
    refine ⟨_, hrun, ?_⟩
    rw [present_enc_encCO, hu, List.getElem?_map, List.getElem?_eq_getElem hg, Option.map_some]
  case decode =>
    obtain ⟨hgood, rfl⟩ := decStream_eq_next hn hout
    have hops : ∀ line ∈ Q, (Instr.dec (lineBits line)).wf s.n = true := fun line hline =>
      wf_dec.2 ((length_lineBits line).trans (isBlockLine_eq_true.1 (hgood line hline)).1)
    have hdata : ∀ d ∈ Q.map fun line => (decBlock s.n (lineBits line)).data, d.length = dataCount s.n :=
      List.forall_mem_map.2 fun line _ => length_extract (one_le_of_valid hn) _
    obtain ⟨u, hu, hrun⟩ := run_issued_entry hn hops hq hg
    refine ⟨_, hrun, ?_⟩
    rw [present_dec_decDO, hu, subseq_flatten hdata (by rwa [List.length_map]), List.getElem_map]

end Sys2Proof.Machine
end

section
/-! PROOFS of 42_stream_ops.md section 4: text as Bits and back. -/

namespace Sys2Proof.Machine

/-- R108: the digits of a text, 8 per character. -/
def textBits (T : List Char) : Bits := (T.map fun ch => codeBits ch.toNat).flatten

@[simp] theorem length_codeBits (u : Nat) : (codeBits u).length = 8 := by simp [codeBits]

theorem length_of_mem_textDigits {T : List Char} : ∀ b ∈ T.map fun ch => codeBits ch.toNat, b.length = 8 :=
  List.forall_mem_map.2 fun _ _ => length_codeBits _

theorem textBits_cons (ch : Char) (T : List Char) : textBits (ch :: T) = codeBits ch.toNat ++ textBits T := rfl

theorem textBits_append (T U : List Char) : textBits (T ++ U) = textBits T ++ textBits U := by simp [textBits]

theorem length_textBits (T : List Char) : (textBits T).length = 8 * T.length := by
  induction T with
  | nil => rfl
  | cons ch T ih =>
    rw [textBits_cons, List.length_append, length_codeBits, ih, List.length_cons]
    omega

/-- R109: text with code points up to 255 is accepted. -/
theorem txt2bits_of_le {T : List Char} (hT : ∀ ch ∈ T, ch.toNat ≤ 255) : txt2bits T = .next (textBits T) := by
  have hfind : T.find? (fun ch => decide (255 < ch.toNat)) = none :=
    List.find?_eq_none.2 fun ch hch => by simpa using hT ch hch
  rw [txt2bits, hfind, List.flatMap_def, textBits]

theorem txt2bits_refused {T : List Char} (hT : ∃ ch ∈ T, 255 < ch.toNat) :
    ∃ code : Nat, 255 < code ∧ txt2bits T = .refused (.codePointAbove255 code) := by
  obtain ⟨ch, hch, habove⟩ := hT
  have hsome : (T.find? fun ch => decide (255 < ch.toNat)).isSome = true :=
    List.find?_isSome.2 ⟨ch, hch, decide_eq_true habove⟩
  obtain ⟨bad, hbad⟩ := Option.isSome_iff_exists.1 hsome
  have hbig : 255 < bad.toNat := by simpa using List.find?_some hbad
  exact ⟨bad.toNat, hbig, by rw [txt2bits, hbad]⟩

/-- Digits read from the most significant one on have the value of the digits read from the least significant one. -/
theorem foldl_reverse_eq_wordValue (bs : Bits) :
    bs.reverse.foldl (fun a x => 2 * a + x.toNat) 0 = wordValue bs := by
  induction bs with
  | nil => rfl
  | cons b bs ih =>
    rw [List.reverse_cons, List.foldl_append, ih, wordValue, List.foldl_cons, List.foldl_nil, Nat.add_comm]

/-- R110: the 8 digits of a code point up to 255 give it back. -/
theorem chunkChar_codeBits {ch : Char} (h : ch.toNat ≤ 255) : chunkChar (codeBits ch.toNat) = ch := by
  have hdigits : codeBits ch.toNat = (lowBits 8 ch.toNat).reverse := rfl
  rw [chunkChar, hdigits, foldl_reverse_eq_wordValue, wordValue_lowBits, Nat.mod_eq_of_lt (by omega), Char.ofNat_toNat]

theorem map_chunkChar_textDigits {T : List Char} (hT : ∀ ch ∈ T, ch.toNat ≤ 255) :
    (T.map fun ch => codeBits ch.toNat).map chunkChar = T := by
  rw [List.map_map]
  exact (List.map_congr_left fun ch hch => chunkChar_codeBits (hT ch hch)).trans (List.map_id T)

/-- R110: the first whole chunks after TXT2BITS are the digits of the characters, whatever follows. -/
theorem wholeChunks_textBits_append (T : List Char) (z : Bits) :
    wholeChunks (textBits T ++ z) = (T.map fun ch => codeBits ch.toNat) ++ wholeChunks z := by
  have hwhole (B : Bits) : wholeChunks B = chunks 8 (B.length / 8) B := by simp [wholeChunks, chunks, Nat.mul_comm]
  have hcount : (textBits T ++ z).length / 8 = (T.map fun ch => codeBits ch.toNat).length + z.length / 8 := by
    rw [List.length_append, length_textBits, List.length_map, Nat.mul_add_div (by decide)]
  rw [hwhole, hwhole, hcount, textBits, chunks_flatten_append length_of_mem_textDigits]

theorem wholeChunks_textBits (T : List Char) : wholeChunks (textBits T) = T.map fun ch => codeBits ch.toNat := by
  have h := wholeChunks_textBits_append T []
  rwa [List.append_nil, show wholeChunks [] = [] from rfl, List.append_nil] at h

section ReadingBack

variable {T : List Char} (hT : ∀ ch ∈ T, ch.toNat ≤ 255)
include hT

theorem bits2txt_dropShortChunk : bits2txt .dropShortChunk (textBits T) = T := by
  rw [bits2txt, wholeChunks_textBits, map_chunkChar_textDigits hT]

/-- R111: what follows the original length is cut off, and no short chunk is left. -/
theorem bits2txt_cutToOriginalLength (z : Bits) :
    bits2txt (.cutToOriginalLength (8 * T.length)) (textBits T ++ z) = T := by
  have hcut : (textBits T ++ z).take (8 * T.length) = textBits T := by
    rw [← length_textBits, List.take_left]
  have hshort : shortChunk (textBits T) = [] := by
    rw [shortChunk, length_textBits, Nat.mul_div_cancel_left _ (by decide), ← length_textBits, List.drop_length]
  rw [bits2txt, hcut, hshort, wholeChunks_textBits, map_chunkChar_textDigits hT]
  exact List.append_nil T

/-- Log 13: a policy of the environment's own keeps the characters before the pad zeros, and has nothing to add when
there are none. -/
theorem bits2txt_other (id p : Nat) :
    ∃ rest : List Char, bits2txt (.other id (8 * T.length)) (textBits T ++ zeros p) = T ++ rest ∧
      (p = 0 → rest = []) := by
  have hbefore : bitsBeforePad (8 * T.length) (textBits T ++ zeros p) = 8 * T.length := by
    have hzeros : ((textBits T ++ zeros p).drop (8 * T.length)).all (! ·) = true := by
      rw [← length_textBits, List.drop_left]
      simp [zeros]
    rw [bitsBeforePad, if_pos hzeros, List.length_append, length_textBits]
    omega
  have hcount : textChunks (8 * T.length) (textBits T ++ zeros p) = T.length := by
    rw [textChunks, hbefore, Nat.mul_comm 8, ceilDiv_mul_self (by decide), List.length_append, length_textBits]
    omega
  have hlead : (wholeChunks (textBits T ++ zeros p)).take (textChunks (8 * T.length) (textBits T ++ zeros p)) =
      T.map fun ch => codeBits ch.toNat := by
    rw [hcount, wholeChunks_textBits_append]
    exact List.take_left' (List.length_map _)
  have hopen : (textBits T ++ zeros p).drop (8 * (T.map fun ch => codeBits ch.toNat).length) = zeros p := by
    rw [List.length_map, ← length_textBits, List.drop_left]
  refine ⟨if (zeros p).isEmpty then [] else Config.otherTailText id (zeros p), ?_, ?_⟩
  · simp only [bits2txt, hlead, hopen, map_chunkChar_textDigits hT]
  · rintro rfl
    rfl

end ReadingBack

theorem bitAt_append_right (a b : Bits) {p : Nat} (h : 1 ≤ p) : bitAt (a ++ b) (a.length + p) = bitAt b p := by
  obtain ⟨q, rfl⟩ := Nat.exists_eq_add_of_le' h
  simp [← Nat.add_assoc, List.getElem?_append_right]

theorem bitAt_codeBits (u : Nat) {j : Nat} (h1 : 1 ≤ j) (h2 : j ≤ 8) : bitAt (codeBits u) j = u.testBit (8 - j) := by
  obtain ⟨q, rfl⟩ := Nat.exists_eq_add_of_le' h1
  simp [codeBits, Nat.lt_of_succ_le h2]

/-- R108: digit `j` (from 1) of character `t` (from 0) is Bit `8 * t + j`. -/
theorem bitAt_textBits {T : List Char} {t j : Nat} {ch : Char} (ht : T[t]? = some ch) (h1 : 1 ≤ j) (h2 : j ≤ 8) :
    bitAt (textBits T) (8 * t + j) = ch.toNat.testBit (8 - j) := by
  obtain ⟨hlt, rfl⟩ := List.getElem?_eq_some_iff.1 ht
  have hsplit : textBits T = textBits (T.take t) ++ (codeBits T[t].toNat ++ textBits (T.drop (t + 1))) := by
    rw [← textBits_cons, ← textBits_append, List.getElem_cons_drop, List.take_append_drop]
  have hfront : (textBits (T.take t)).length = 8 * t := by rw [length_textBits, List.length_take_of_le hlt.le]
  rw [hsplit, ← hfront, bitAt_append_right _ _ h1, bitAt_append_left _ (by rwa [length_codeBits]),
    bitAt_codeBits _ h1 h2]

/-- Settles O59: every character becomes 8 digits, which every policy reads back when nothing follows them. -/
theorem textAdaptersInvertEachOther : Obligations.TextAdaptersInvertEachOther := by
  refine ⟨fun T hT => ?accepted, fun T hT => txt2bits_refused hT⟩
  case accepted =>
    refine ⟨textBits T, txt2bits_of_le hT, length_textBits T, fun t ch ht j h1 h2 => bitAt_textBits ht h1 h2,
      bits2txt_dropShortChunk hT, ?cut, fun id => ?other⟩
    case cut => simpa [length_textBits] using bits2txt_cutToOriginalLength hT []
    case other =>
      obtain ⟨rest, htext, hrest⟩ := bits2txt_other hT id 0
      simpa [length_textBits, hrest rfl, zeros] using htext

/-- Settles O60: the line gives the digits of the text back with the pad zeros behind them. -/
theorem textSurvivesTheWholeLine : Obligations.TextSurvivesTheWholeLine := by
  intro n T inj hn hT hinj
  have hlen := length_textBits T
  have hline : straightLine n (textBits T) inj = .next (textBits T ++ zeros (padCount n (8 * T.length))) := by
    rw [← hlen]
    cases inj with
    | none => exact straightLine_none hn _
    | some flips =>
      obtain ⟨hcount, hflips⟩ := hinj flips rfl
      exact straightLine_some hn _ (hlen.symm ▸ hcount) hflips
  refine ⟨_, _, txt2bits_of_le hT, hline, bits2txt_cutToOriginalLength hT _, fun id => ?kept, fun hdvd => ?whole⟩
  case kept =>
    obtain ⟨rest, htext, -⟩ := bits2txt_other hT id (padCount n (8 * T.length))
    exact ⟨rest, htext.symm⟩
  case whole =>
    have hpad : padCount n (8 * T.length) = 0 := by
      rw [padCount, Nat.mod_eq_zero_of_dvd hdvd, Nat.sub_zero, Nat.mod_self]
    rw [hpad]
    refine ⟨by simpa [zeros] using bits2txt_dropShortChunk hT, fun id => ?_⟩
    obtain ⟨rest, htext, hrest⟩ := bits2txt_other hT id 0
    rw [htext, hrest rfl, List.append_nil]

end Sys2Proof.Machine
end
